-- ==== Sys2Proof/Word.lean ====
section
/-! DEFINITION. The word types of the core: rules R9 (every word, register and address is an unsigned
16-bit value) and R15 (eight general registers). -/

namespace Sys2Proof

/-- A word, register value or address: an unsigned 16-bit value (R9). `+` and `-` wrap modulo 2^16. -/
abbrev Word := BitVec 16

/-- Half of a word, as `Host.Cell` stores it. The core itself never moves a byte (R40). -/
abbrev Byte := BitVec 8

/-- The number of a general register, R0 to R7 (R15, R64). -/
abbrev Reg := Fin 8

end Sys2Proof
end

