-- ==== Sys2Proof/Config.lean ====
section
/-! DEFINITION. The fixed parameters of the block, rule R7. None of them is configurable, and the spec
leaves no value free, so this file holds no opaque constant. -/

namespace Sys2Proof

/-- Words of data and instruction memory (R7 `MEM_WORDS`). -/
abbrev Config.memWords : Nat := 1024

/-- First invalid byte address of memory (R7 `MEM_LIMIT`). -/
abbrev Config.memLimit : Nat := 0x0800

/-- Words of stack storage, the maximum depth (R7 `STACK_WORDS`). -/
abbrev Config.stackWords : Nat := 256

/-- SP of the empty stack (R7 `STACK_BASE`). -/
abbrev Config.stackBase : Word := 0x8200#16

/-- SP of the full stack, the lowest SP (R7 `STACK_FLOOR`). -/
abbrev Config.stackFloor : Word := 0x8000#16

/-- The halt sentinel, and the fill value of memory at reset (R7 `HALT_WORD`). -/
abbrev Config.haltWord : Word := 0xFFFF#16

/-- PC after reset (R7 `PC_RESET`). -/
abbrev Config.pcReset : Word := 0x0000#16

/-- The sequencer's PC increment (R7 `INSN_BYTES`). -/
abbrev Config.insnBytes : Word := 2#16

/-- What a byte of memory that no listed cell holds reads as: half of the reset fill word 0xFFFF
(R144: "Every memory word is 0xFFFF"). -/
abbrev Config.memFill : Byte := 0xFF#8

end Sys2Proof
end

