-- ==== Sys2Proof/Syntax.lean ====
section
/-! DEFINITION. The instructions: one constructor per row of spec/opcode_table.json (27 rows), and the
four reasons of rule R68 for which a word is no instruction. -/

namespace Sys2Proof

/-- The 27 instruction forms. Operand order follows the assembler syntax of R73, destination first.
A displacement is the signed byte count of R63; `WellFormed` bounds it and the shift counts. -/
inductive Instr where
  /-- R76: no operation, with a state report. -/
  | nop
  /-- R77: push a register. -/
  | push (rn : Reg)
  /-- R78: pop into a register. -/
  | pop (rd : Reg)
  /-- R79: compare by subtraction, for the flags only. -/
  | cmp (rm rn : Reg)
  /-- R81: jump. -/
  | jmp (disp : Int)
  /-- R82: jump if Zero and not Sign. -/
  | jeq (disp : Int)
  /-- R83: jump if Sign and not Zero. -/
  | jlt (disp : Int)
  /-- R84: jump if neither Zero nor Sign. -/
  | jgt (disp : Int)
  /-- R86: copy a register. -/
  | mov (rd rm : Reg)
  /-- R87: load an 8-bit immediate. -/
  | movi (rd : Reg) (imm8 : Byte)
  /-- R88: store register `rn` at the address in `rm`. -/
  | store (rm rn : Reg)
  /-- R89: store an 8-bit immediate at the address in `rd`. -/
  | storei (rd : Reg) (imm8 : Byte)
  /-- R90: load `rd` from the address in `rm`. -/
  | load (rd rm : Reg)
  /-- R99. -/
  | add (rd rm rn : Reg)
  /-- R100. -/
  | sub (rd rm rn : Reg)
  /-- R101. -/
  | mul (rd rm rn : Reg)
  /-- R102. -/
  | and (rd rm rn : Reg)
  /-- R103. -/
  | or (rd rm rn : Reg)
  /-- R104. -/
  | not (rd rm : Reg)
  /-- R105. -/
  | xor (rd rm rn : Reg)
  /-- R107: logical shift right by 1. -/
  | shr (rd rm : Reg)
  /-- R108: logical shift right by an immediate count. -/
  | shri (rd rm : Reg) (sh3 : Nat)
  /-- R109: logical shift left by 1. -/
  | shl (rd rm : Reg)
  /-- R110: logical shift left by an immediate count. -/
  | shli (rd rm : Reg) (sh3 : Nat)
  /-- R111: rotate right by 1. -/
  | ror (rd rm : Reg)
  /-- R112: rotate left by 1. -/
  | rol (rd rm : Reg)
  /-- R113: stop. -/
  | halt
  deriving DecidableEq, Repr

/-- Why a word is illegal: the four cases of R68, in its order. -/
inductive Illegal where
  /-- R68 item 1: op = 0x0, i = 0, sel = 0 and the word is not 0x0000. -/
  | op0SelectorZero
  /-- R68 item 2: op = 0x3 with i = 1. -/
  | op3Immediate
  /-- R68 item 3: a register-register opcode with i = 1. -/
  | noImmediateForm
  /-- R68 item 4: op = 0xF and the word is not 0xFFFF. -/
  | opFReserved
  deriving DecidableEq, Repr

end Sys2Proof
end

