-- ==== Sys2Proof/Decode.lean ====
section
/-! DEFINITION. Decoding and encoding of instruction words: fields R59 to R64, the decoder R65, the
illegal words R68, the layouts R60. The source leaves two points that the spec decides: bits a form does
not read are ignored (D8), and every "n/a" or reserved cell is illegal (D9). -/

namespace Sys2Proof

/-- R59: `op` = w[15:12]. -/
def opField (w : Word) : BitVec 4 := w.extractLsb' 12 4

/-- R59: `i` = w[11], the immediate flag. -/
def immFlag (w : Word) : Bool := w.getLsbD 11

/-- R59: `rd` = w[10:8]. -/
def rdField (w : Word) : Reg := (w.extractLsb' 8 3).toFin

/-- R59: `rm` = w[7:5]. -/
def rmField (w : Word) : Reg := (w.extractLsb' 5 3).toFin

/-- R59: `rn` = w[4:2]. -/
def rnField (w : Word) : Reg := (w.extractLsb' 2 3).toFin

/-- R59: `sel` = w[1:0]. -/
def selField (w : Word) : BitVec 2 := w.extractLsb' 0 2

/-- R61: `imm8` = w[7:0]. -/
def imm8Field (w : Word) : Byte := w.extractLsb' 0 8

/-- R62: `sh3` = w[2:0], an unsigned count. -/
def sh3Field (w : Word) : Nat := (w.extractLsb' 0 3).toNat

/-- R63: `disp9` = w[10:2], read as a two's-complement number. -/
def dispField (w : Word) : Int := (w.extractLsb' 2 9).toInt

/-- R65, R67: opcode 0x0 with i = 1, control transfer by selector. -/
def decodeControl (w : Word) : Except Illegal Instr :=
  match selField w with
  | 0#2 => .ok (.jmp (dispField w))
  | 1#2 => .ok (.jeq (dispField w))
  | 2#2 => .ok (.jlt (dispField w))
  | _ => .ok (.jgt (dispField w))

/-- R65, R67: opcode 0x0 with i = 0, the stack and compare group by selector. -/
def decodeStackGroup (w : Word) : Except Illegal Instr :=
  match selField w with
  | 0#2 => if w = 0x0000#16 then .ok .nop else .error .op0SelectorZero
  | 1#2 => .ok (.push (rnField w))
  | 2#2 => .ok (.pop (rdField w))
  | _ => .ok (.cmp (rmField w) (rnField w))

/-- R68 item 3: an opcode that has no form with i = 1. -/
def registerOnly (w : Word) (i : Instr) : Except Illegal Instr :=
  if immFlag w then .error .noImmediateForm else .ok i

/-- R65: the decoder, one total function over all 65536 words; a word that is no instruction is
rejected with its reason of R68. -/
def decode (w : Word) : Except Illegal Instr :=
  match opField w with
  | 0x0#4 => if immFlag w then decodeControl w else decodeStackGroup w
  | 0x1#4 => .ok (if immFlag w then .movi (rdField w) (imm8Field w) else .mov (rdField w) (rmField w))
  | 0x2#4 => .ok (if immFlag w then .storei (rdField w) (imm8Field w) else .store (rmField w) (rnField w))
  | 0x3#4 => if immFlag w then .error .op3Immediate else .ok (.load (rdField w) (rmField w))
  | 0x4#4 => registerOnly w (.add (rdField w) (rmField w) (rnField w))
  | 0x5#4 => registerOnly w (.sub (rdField w) (rmField w) (rnField w))
  | 0x6#4 => registerOnly w (.mul (rdField w) (rmField w) (rnField w))
  | 0x7#4 => registerOnly w (.and (rdField w) (rmField w) (rnField w))
  | 0x8#4 => registerOnly w (.or (rdField w) (rmField w) (rnField w))
  | 0x9#4 => registerOnly w (.not (rdField w) (rmField w))
  | 0xA#4 => registerOnly w (.xor (rdField w) (rmField w) (rnField w))
  | 0xB#4 => .ok (if immFlag w then .shri (rdField w) (rmField w) (sh3Field w) else .shr (rdField w) (rmField w))
  | 0xC#4 => .ok (if immFlag w then .shli (rdField w) (rmField w) (sh3Field w) else .shl (rdField w) (rmField w))
  | 0xD#4 => registerOnly w (.ror (rdField w) (rmField w))
  | 0xE#4 => registerOnly w (.rol (rdField w) (rmField w))
  | _ => if w = Config.haltWord then .ok .halt else .error .opFReserved

/-- A 3-bit register field (R64). -/
def regBits (r : Reg) : BitVec 3 := BitVec.ofFin r

/-- The layouts S1, S2, S3, R2, R3 and ST of R60: op, i, rd, rm, rn, sel; a field the form does not read
is 0 (R73: "The assembler writes 0 in every ignored bit"). -/
def encodeFields (op : BitVec 4) (i : BitVec 1) (rd rm rn : Reg) (sel : BitVec 2) : Word :=
  op ++ i ++ regBits rd ++ regBits rm ++ regBits rn ++ sel

/-- Form J of R60: opcode 0x0, i = 1, the 9-bit displacement, the selector. -/
def encodeJump (d : Int) (sel : BitVec 2) : Word :=
  0x0#4 ++ 1#1 ++ BitVec.ofInt 9 d ++ sel

/-- Form I8 of R60. -/
def encodeImm8 (op : BitVec 4) (rd : Reg) (imm8 : Byte) : Word :=
  op ++ 1#1 ++ regBits rd ++ imm8

/-- Form SH of R60: bits 4:3 are not read. -/
def encodeShift (op : BitVec 4) (rd rm : Reg) (n : Nat) : Word :=
  op ++ 1#1 ++ regBits rd ++ regBits rm ++ 0#2 ++ BitVec.ofNat 3 n

/-- The word of an instruction, with 0 in every bit its form does not read. -/
def encode (i : Instr) : Word :=
  match i with
  | .nop => 0x0000#16
  | .push rn => encodeFields 0x0#4 0#1 0 0 rn 1#2
  | .pop rd => encodeFields 0x0#4 0#1 rd 0 0 2#2
  | .cmp rm rn => encodeFields 0x0#4 0#1 0 rm rn 3#2
  | .jmp d => encodeJump d 0#2
  | .jeq d => encodeJump d 1#2
  | .jlt d => encodeJump d 2#2
  | .jgt d => encodeJump d 3#2
  | .mov rd rm => encodeFields 0x1#4 0#1 rd rm 0 0#2
  | .movi rd k => encodeImm8 0x1#4 rd k
  | .store rm rn => encodeFields 0x2#4 0#1 0 rm rn 0#2
  | .storei rd k => encodeImm8 0x2#4 rd k
  | .load rd rm => encodeFields 0x3#4 0#1 rd rm 0 0#2
  | .add rd rm rn => encodeFields 0x4#4 0#1 rd rm rn 0#2
  | .sub rd rm rn => encodeFields 0x5#4 0#1 rd rm rn 0#2
  | .mul rd rm rn => encodeFields 0x6#4 0#1 rd rm rn 0#2
  | .and rd rm rn => encodeFields 0x7#4 0#1 rd rm rn 0#2
  | .or rd rm rn => encodeFields 0x8#4 0#1 rd rm rn 0#2
  | .not rd rm => encodeFields 0x9#4 0#1 rd rm 0 0#2
  | .xor rd rm rn => encodeFields 0xA#4 0#1 rd rm rn 0#2
  | .shr rd rm => encodeFields 0xB#4 0#1 rd rm 0 0#2
  | .shri rd rm n => encodeShift 0xB#4 rd rm n
  | .shl rd rm => encodeFields 0xC#4 0#1 rd rm 0 0#2
  | .shli rd rm n => encodeShift 0xC#4 rd rm n
  | .ror rd rm => encodeFields 0xD#4 0#1 rd rm 0 0#2
  | .rol rd rm => encodeFields 0xE#4 0#1 rd rm 0 0#2
  | .halt => Config.haltWord

/-- The instruction the decoder reads from a table row's word `w` of `nbits` bits; every instruction is
one 16-bit word (R58), and bits above `nbits` are 0. -/
def decodeTableWord (nbits w : Nat) : Option Instr :=
  match decode (BitVec.ofNat 16 (w % 2 ^ nbits)) with
  | .ok i => some i
  | .error _ => none

end Sys2Proof
end

