-- ==== Sys2Proof/Machine/State.lean ====
section
/-! DEFINITION. The machine's state: every piece of state of rules R15 to R29, R34 and R147, and the
model's own two fields (`reports`, `inputs`). Plain data throughout. -/

namespace Sys2Proof.Machine

/-- R23: four independent 1-bit flags. The spec gives them no positions in a word. -/
structure Flags where
  /-- Z. -/
  zero : Bool
  /-- S. -/
  sign : Bool
  /-- C. -/
  carry : Bool
  /-- V. -/
  overflow : Bool
  deriving DecidableEq, Repr

/-- R25: the run state of the sequencer. -/
inductive RunState where
  /-- After reset, while the host loads. -/
  | idle
  /-- The sequencer steps. -/
  | running
  /-- Stopped at the sentinel or out of range; terminal. -/
  | halted
  /-- Stopped by a fatal decode error; terminal. -/
  | faulted
  /-- The load was rejected; terminal. -/
  | loadFailed
  deriving DecidableEq, Repr

/-- R126: the events, codes 1 to 9 in the table's order. -/
inductive EventCode where
  | report
  | memWarn
  | stackOvf
  | stackUnf
  | decodeFatal
  | haltSentinel
  | haltPcRange
  | loadBadAddr
  | loadEmpty
  deriving DecidableEq, Repr

/-- R34: an event is a pair (code, data). -/
structure Event where
  code : EventCode
  data : Word
  deriving DecidableEq, Repr

/-- R26: memory, as a list of cells in one canonical form (`Memory.wf`). A word lies in two cells, its
low byte at the even address: the core defines no byte order and none can be observed (R40, D18), so this
is the model's DESIGN CHOICE (log entry 1), safe. -/
structure Memory where
  cells : List Host.Cell
  deriving DecidableEq, Repr

/-- R141: the fields of a state report; R142: the NOP's report has the same fields. A touched cell is
listed as (byte address, value). Its rendering is outside the core (R3). -/
structure Report where
  regs : Vector Word 8
  pc : Word
  ir : Word
  sp : Word
  flags : Flags
  memCells : List (Word × Word)
  stackCells : List (Word × Word)
  deriving DecidableEq, Repr

/-- R32, R153: what the host may present at one clock edge. -/
inductive HostAction where
  /-- No transaction at this edge. -/
  | noAction
  /-- `rst`. -/
  | rst
  /-- `LoadRecord(addr, word)`. -/
  | loadRecord (addr word : Word)
  /-- `Start`. -/
  | start
  deriving DecidableEq, Repr

/-- The whole machine. -/
structure State where
  /-- R15: R0 to R7. -/
  regs : Vector Word 8
  /-- R18: the program counter. -/
  pc : Word
  /-- R21: the instruction register. -/
  ir : Word
  /-- R22: the stack pointer. -/
  sp : Word
  /-- R23: Z, S, C and V. -/
  flags : Flags
  /-- R25: RUN. -/
  run : RunState
  /-- R26: 1024 words of memory. -/
  mem : Memory
  /-- R27: 256 stack words, by the index of R50. -/
  stack : Vector Word 256
  /-- R28: one touched bit per memory word. -/
  memTouched : BitVec 1024
  /-- R28: one touched bit per stack word. -/
  stackTouched : BitVec 256
  /-- R147: how many load records were accepted since reset. -/
  accepted : Nat
  /-- R34: the events emitted since reset, oldest first. -/
  events : List Event
  /-- R141, R142: the state reports made since reset, oldest first. The model's own record of an output. -/
  reports : List Report
  /-- R32: what the host presents at the coming clock edges, soonest first; no transaction after its end.
  The model's own field for the block's inputs. -/
  inputs : List HostAction
  deriving DecidableEq, Repr

/-- Why a step stops with a fault. -/
inductive Fault where
  /-- Raised by PUSH and POP when SP names no stack cell: it is odd or outside the range that R22 says SP
  "only ever holds", and R50 gives such an address no cell. No run from reset reaches such a state. Safe. -/
  | noStackCell (sp : Word)
  deriving DecidableEq, Repr

/-- Why a step is refused. -/
inductive Refusal where
  /-- An instruction without a meaning in this model, by its mnemonic. Safe. No arm uses it now. -/
  | notModelled (mnemonic : String)
  /-- Raised by a clock edge at which the host presents `rst` while RUN = RUNNING: R153, "A reset during
  RUNNING is outside this spec". Safe. -/
  | resetWhileRunning
  deriving DecidableEq, Repr

/-- R144: the state right after reset. -/
def State.reset : State where
  regs := Vector.replicate 8 0#16
  pc := Config.pcReset
  ir := 0#16
  sp := Config.stackBase
  flags := ⟨false, false, false, false⟩
  run := .idle
  mem := ⟨[]⟩
  stack := Vector.replicate 256 0#16
  memTouched := 0#1024
  stackTouched := 0#256
  accepted := 0
  events := []
  reports := []
  inputs := []

end Sys2Proof.Machine
end

