-- ==== Sys2Proof/Machine/Flags.lean ====
section
/-! DEFINITION. The flag unit: rules R91 to R97. -/

namespace Sys2Proof.Machine

/-- R91: the four operator kinds. -/
inductive FlagKind where
  | add
  | subtract
  | multiply
  | other
  deriving DecidableEq, Repr

/-- R92: Carry of each kind, from the exact unsigned operands. For `subtract`, 1 means no borrow (R95). -/
def carryFlag (a b : Word) (kind : FlagKind) : Bool :=
  match kind with
  | .add => decide (0xFFFF < a.toNat + b.toNat)
  | .subtract => decide (b.toNat ≤ a.toNat)
  | .multiply => decide (0xFFFF < a.toNat * b.toNat)
  | .other => false

/-- R92: Overflow of each kind. -/
def overflowFlag (r a b : Word) (kind : FlagKind) : Bool :=
  match kind with
  | .add => a.msb == b.msb && r.msb != a.msb
  | .subtract => a.msb != b.msb && r.msb != a.msb
  | .multiply => carryFlag a b .multiply
  | .other => false

/-- R92: the flag function; `r` is the 16-bit result (D7), `a` and `b` the operands read. -/
def computeFlags (r a b : Word) (kind : FlagKind) : Flags where
  zero := r == 0#16
  sign := r.msb
  carry := carryFlag a b kind
  overflow := overflowFlag r a b kind

end Sys2Proof.Machine
end

