-- ==== Sys2Proof/Machine/Ops.lean ====
section
/-! DEFINITION. The named operations of the machine: memory cells and words (R37), the register file
(R15), the event output (R34), reports (R141), the stack unit (R47 to R50) and the stops (R116, R117,
R121). The core takes no exception (R132): a stop is the one shared operation of that kind, and only reset
leaves it (R133). -/

namespace Sys2Proof.Machine

/-- The byte a list of cells holds at address `a`; an address it does not list holds the reset fill. -/
def cellsRead (cs : List Host.Cell) (a : Nat) : Byte :=
  match cs with
  | [] => Config.memFill
  | c :: rest => if c.1 = a then c.2 else cellsRead rest a

/-- The cells after a byte is written, kept sorted and without an entry equal to the fill. -/
def cellsWrite (cs : List Host.Cell) (a : Nat) (b : Byte) : List Host.Cell :=
  match cs with
  | [] => if b = Config.memFill then [] else [(a, b)]
  | c :: rest =>
    if a < c.1 then (if b = Config.memFill then c :: rest else (a, b) :: c :: rest)
    else if a = c.1 then (if b = Config.memFill then rest else (a, b) :: rest)
    else c :: cellsWrite rest a b

/-- Addresses strictly rise and every address is above `lo`, no listed byte is the fill, and every
address lies in memory (R36). -/
def cellsWf (lo : Nat) (cs : List Host.Cell) : Bool :=
  match cs with
  | [] => true
  | c :: rest =>
    decide (lo ≤ c.1) && decide (c.1 < Config.memLimit) && decide (c.2 ≠ Config.memFill) &&
      cellsWf (c.1 + 1) rest

/-- The canonical form of memory. -/
def Memory.wf (m : Memory) : Bool := cellsWf 0 m.cells

/-- One byte of memory. -/
def Memory.readByte (m : Memory) (a : Nat) : Byte := cellsRead m.cells a

/-- Memory after one byte is written. -/
def Memory.writeByte (m : Memory) (a : Nat) (b : Byte) : Memory := ⟨cellsWrite m.cells a b⟩

/-- R37: the byte address of the word that byte address `a` names, `2 * (a >> 1)`. -/
def wordBase (a : Word) : Nat := 2 * (a.toNat / 2)

/-- R10 `MemRead(a)`: the word `memory[a >> 1]`. It does not check its address. -/
def Memory.readWord (m : Memory) (a : Word) : Word :=
  m.readByte (wordBase a + 1) ++ m.readByte (wordBase a)

/-- R10 `MemWrite(a, v)`, the memory part: `memory[a >> 1] <- v`. It does not check its address. -/
def Memory.writeWord (m : Memory) (a v : Word) : Memory :=
  (m.writeByte (wordBase a) (v.extractLsb' 0 8)).writeByte (wordBase a + 1) (v.extractLsb' 8 8)

/-- R42 `ValidDataAddr(a)`: even and below 0x0800. -/
def validDataAddr (a : Word) : Bool := !a.getLsbD 0 && decide (a.toNat < Config.memLimit)

/-- R10 `x[i]`. -/
def State.reg (s : State) (r : Reg) : Word := s.regs.get r

/-- R10 `x[i] <- v`. -/
def State.setReg (s : State) (r : Reg) (v : Word) : State := { s with regs := s.regs.set r v }

/-- R10 `pc <- target`. -/
def State.setPc (s : State) (v : Word) : State := { s with pc := v }

/-- R118: IR takes the fetched word. -/
def State.setIr (s : State) (v : Word) : State := { s with ir := v }

/-- R23: all four flags are written at once. -/
def State.setFlags (s : State) (f : Flags) : State := { s with flags := f }

/-- R25: RUN is written. -/
def State.setRun (s : State) (r : RunState) : State := { s with run := r }

/-- R22: SP is written (by the stack unit only). -/
def State.setSp (s : State) (v : Word) : State := { s with sp := v }

/-- The host's actions for the clock edges after this one. -/
def State.setInputs (s : State) (l : List HostAction) : State := { s with inputs := l }

/-- R147: one more record was accepted. -/
def State.countRecord (s : State) : State := { s with accepted := s.accepted + 1 }

/-- R10 `emit E(data)`: the event joins the list in order (R34). -/
def State.emit (s : State) (code : EventCode) (data : Word) : State :=
  { s with events := s.events ++ [⟨code, data⟩] }

/-- R28: the bitmap with the bit of cell `k` set. -/
def touch {n : Nat} (bits : BitVec n) (k : Nat) : BitVec n := bits ||| BitVec.twoPow n k

/-- R10 `MemWrite(a, v)`: the word is written and its cell marked touched. -/
def State.storeWord (s : State) (a v : Word) : State :=
  { s with mem := s.mem.writeWord a v, memTouched := touch s.memTouched (a.toNat / 2) }

/-- R48: the stack word `j` is written and its cell marked touched. -/
def State.storeStack (s : State) (j : Fin 256) (v : Word) : State :=
  { s with stack := s.stack.set j v, stackTouched := touch s.stackTouched j.val }

/-- R141: the touched cells of a memory as (byte address, value), by rising address. -/
def touchedWords (m : Memory) (bits : BitVec 1024) : List (Word × Word) :=
  (List.range Config.memWords).filterMap fun k =>
    if bits.getLsbD k then some (BitVec.ofNat 16 (2 * k), m.readWord (BitVec.ofNat 16 (2 * k))) else none

/-- R141: the touched cells of a stack as (byte address of R50, value), from the first cell pushed down. -/
def touchedCells (stack : Vector Word 256) (bits : BitVec 256) : List (Word × Word) :=
  (List.range Config.stackWords).filterMap fun j =>
    if bits.getLsbD j then some (Config.stackBase - BitVec.ofNat 16 (2 * (j + 1)), stack[j]?.getD 0#16) else none

/-- R141: the report of a state. -/
def State.report (s : State) : Report where
  regs := s.regs
  pc := s.pc
  ir := s.ir
  sp := s.sp
  flags := s.flags
  memCells := touchedWords s.mem s.memTouched
  stackCells := touchedCells s.stack s.stackTouched

/-- R141, R142: the report of the state as it now stands is made. -/
def State.makeReport (s : State) : State := { s with reports := s.reports ++ [s.report] }

/-- A stop of the sequencer (R116, R117, R121): RUN is written, the event emitted, the final report
made. -/
def State.stop (s : State) (run : RunState) (code : EventCode) (data : Word) : State :=
  ((s.setRun run).emit code data).makeReport

/-- R47: the depth of the stack. -/
def stackDepth (sp : Word) : Nat := (Config.stackBase.toNat - sp.toNat) / 2

/-- R50 `StackIndex(A)`: the index of the stack cell at byte address `A`, for the even addresses 0x8000
to 0x81FE; no other address has a cell (R45). -/
def stackIndex (a : Word) : Option (Fin 256) :=
  if h : a.toNat % 2 = 0 ∧ Config.stackFloor.toNat ≤ a.toNat ∧ a.toNat < Config.stackBase.toNat then
    some ⟨(Config.stackBase.toNat - a.toNat) / 2 - 1, by
      have h1 := h.2.1
      have h2 := h.2.2
      simp at h1 h2 ⊢
      omega⟩
  else none

/-- R48 `Push(v)`: decrement, then write; on a full stack only STACK_OVF is emitted. -/
def push (v : Word) (s : State) : Host.Outcome State Fault Refusal :=
  if stackDepth s.sp = Config.stackWords then .next (s.emit .stackOvf s.sp)
  else
    match stackIndex (s.sp - 2#16) with
    | none => .fault (.noStackCell (s.sp - 2#16))
    | some j => .next ((s.setSp (s.sp - 2#16)).storeStack j v)

/-- R49 `Pop()`: read, then increment; on an empty stack STACK_UNF is emitted and 0 returned. -/
def pop (s : State) : Host.Outcome (Word × State) Fault Refusal :=
  if Config.stackBase.toNat ≤ s.sp.toNat then .next (0#16, s.emit .stackUnf s.sp)
  else
    match stackIndex s.sp with
    | none => .fault (.noStackCell s.sp)
    | some j => .next (s.stack.get j, s.setSp (s.sp + 2#16))

/-- What follows an operation that answered a next state. -/
def andThen {σ τ : Type} (o : Host.Outcome σ Fault Refusal) (f : σ → Host.Outcome τ Fault Refusal) :
    Host.Outcome τ Fault Refusal :=
  match o with
  | .next s => f s
  | .fault r => .fault r
  | .refused r => .refused r

end Sys2Proof.Machine
end

