-- ==== Sys2Proof/Machine/Operands.lean ====
section
/-! DEFINITION. The operand forms and the shared shapes of the meanings: the zero-extended immediate
(R61), the branch target (R80), the checked data access (R42, R43), the register result with flags (R98). -/

namespace Sys2Proof.Machine

/-- R61: `zext_8(w[7:0])`. -/
def immOperand (imm8 : Byte) : Word := imm8.zeroExtend 16

/-- R80 `BranchWrite`: `trunc16(PC + disp - 2)`; the sequencer's +2 then lands at PC + disp. All PC
arithmetic wraps (D3) and the displacement counts bytes (D4). -/
def branchWrite (pc : Word) (disp : Int) : Word := pc + BitVec.ofInt 16 disp - 2#16

/-- R80 to R84: a jump taken when `taken` holds writes the branch target to PC. -/
def jumpIf (taken : Bool) (disp : Int) (s : State) : State :=
  if taken then s.setPc (branchWrite s.pc disp) else s

/-- R88, R89: the checked store of `v` at byte address `a`; an invalid address is reported by MEM_WARN and
skipped (R43). -/
def checkedStore (a v : Word) (s : State) : State :=
  if validDataAddr a then s.storeWord a v else s.emit .memWarn a

/-- R90: the checked load into `rd`; on an invalid address `rd` keeps its value (D11). -/
def checkedLoad (rd : Reg) (a : Word) (s : State) : State :=
  if validDataAddr a then s.setReg rd (s.mem.readWord a) else s.emit .memWarn a

/-- R98: the result goes to `rd` and all four flags are written from it and from the operands read. -/
def writeResult (rd : Reg) (r a b : Word) (kind : FlagKind) (s : State) : State :=
  (s.setReg rd r).setFlags (computeFlags r a b kind)

end Sys2Proof.Machine
end

