-- ==== Sys2Proof/Machine/Alu.lean ====
section
/-! DEFINITION. Opcodes 0x4 to 0xA: register arithmetic and logic (R99 to R105). -/

namespace Sys2Proof.Machine

/-- R99: `trunc16(a + b)`. -/
def execAdd (rd rm rn : Reg) (s : State) : Host.Outcome State Fault Refusal :=
  .next (writeResult rd (s.reg rm + s.reg rn) (s.reg rm) (s.reg rn) .add s)

/-- R100: `trunc16(a - b)`. -/
def execSub (rd rm rn : Reg) (s : State) : Host.Outcome State Fault Refusal :=
  .next (writeResult rd (s.reg rm - s.reg rn) (s.reg rm) (s.reg rn) .subtract s)

/-- R101: the low 16 bits of the unsigned product. -/
def execMul (rd rm rn : Reg) (s : State) : Host.Outcome State Fault Refusal :=
  .next (writeResult rd (BitVec.ofNat 16 ((s.reg rm).toNat * (s.reg rn).toNat)) (s.reg rm) (s.reg rn) .multiply s)

/-- R102: bitwise and. -/
def execAnd (rd rm rn : Reg) (s : State) : Host.Outcome State Fault Refusal :=
  .next (writeResult rd (s.reg rm &&& s.reg rn) (s.reg rm) (s.reg rn) .other s)

/-- R103: bitwise or. -/
def execOr (rd rm rn : Reg) (s : State) : Host.Outcome State Fault Refusal :=
  .next (writeResult rd (s.reg rm ||| s.reg rn) (s.reg rm) (s.reg rn) .other s)

/-- R104: bitwise complement; "flags updated with second operand = 0". -/
def execNot (rd rm : Reg) (s : State) : Host.Outcome State Fault Refusal :=
  .next (writeResult rd (~~~(s.reg rm)) (s.reg rm) 0#16 .other s)

/-- R105: bitwise exclusive or. -/
def execXor (rd rm rn : Reg) (s : State) : Host.Outcome State Fault Refusal :=
  .next (writeResult rd (s.reg rm ^^^ s.reg rn) (s.reg rm) (s.reg rn) .other s)

end Sys2Proof.Machine
end

