-- ==== Sys2Proof/Machine/Control.lean ====
section
/-! DEFINITION. Opcode 0x0: no-op, stack, compare and jumps (R76 to R84). The sequencer's +2 follows each
meaning (R120). No instruction here but CMP writes a flag (D6). -/

namespace Sys2Proof.Machine

/-- R76: emit REPORT(PC) and make the report (R142); nothing else changes. -/
def execNop (s : State) : Host.Outcome State Fault Refusal :=
  .next (s.emit .report s.pc).makeReport

/-- R77: `Push(x[rn])`. -/
def execPush (rn : Reg) (s : State) : Host.Outcome State Fault Refusal :=
  push (s.reg rn) s

/-- R78: `x[rd] <- Pop()`; an underflow writes 0 (D10). -/
def execPop (rd : Reg) (s : State) : Host.Outcome State Fault Refusal :=
  andThen (pop s) fun p => .next (p.2.setReg rd p.1)

/-- R79: the flags of `x[rm] - x[rn]`; the difference is discarded. -/
def execCmp (rm rn : Reg) (s : State) : Host.Outcome State Fault Refusal :=
  .next (s.setFlags (computeFlags (s.reg rm - s.reg rn) (s.reg rm) (s.reg rn) .subtract))

/-- R81: jump. -/
def execJmp (disp : Int) (s : State) : Host.Outcome State Fault Refusal :=
  .next (jumpIf true disp s)

/-- R82: jump if Z = 1 and S = 0. -/
def execJeq (disp : Int) (s : State) : Host.Outcome State Fault Refusal :=
  .next (jumpIf (s.flags.zero && !s.flags.sign) disp s)

/-- R83: jump if S = 1 and Z = 0. -/
def execJlt (disp : Int) (s : State) : Host.Outcome State Fault Refusal :=
  .next (jumpIf (s.flags.sign && !s.flags.zero) disp s)

/-- R84: jump if Z = 0 and S = 0. -/
def execJgt (disp : Int) (s : State) : Host.Outcome State Fault Refusal :=
  .next (jumpIf (!s.flags.zero && !s.flags.sign) disp s)

end Sys2Proof.Machine
end

