-- ==== Sys2Proof/Machine/Halt.lean ====
section
/-! DEFINITION. HALT (R113). -/

namespace Sys2Proof.Machine

/-- R113: `RUN <- HALTED`, HALT_SENTINEL(PC), then the final-state report; nothing else changes. The
sequencer neither writes IR nor advances PC around it (R117). -/
def execHalt (s : State) : Host.Outcome State Fault Refusal :=
  .next (s.stop .halted .haltSentinel s.pc)

end Sys2Proof.Machine
end

