-- ==== Sys2Proof/Machine/Move.lean ====
section
/-! DEFINITION. Opcodes 0x1 to 0x3: moves, stores and the load (R86 to R90). None writes a flag (D6). -/

namespace Sys2Proof.Machine

/-- R86: `x[rd] <- x[rm]`. -/
def execMov (rd rm : Reg) (s : State) : Host.Outcome State Fault Refusal :=
  .next (s.setReg rd (s.reg rm))

/-- R87: `x[rd] <- zext_8(imm8)`. -/
def execMovi (rd : Reg) (imm8 : Byte) (s : State) : Host.Outcome State Fault Refusal :=
  .next (s.setReg rd (immOperand imm8))

/-- R88: store `x[rn]` at address `x[rm]`. -/
def execStore (rm rn : Reg) (s : State) : Host.Outcome State Fault Refusal :=
  .next (checkedStore (s.reg rm) (s.reg rn) s)

/-- R89: store `zext_8(imm8)` at address `x[rd]` (D12). -/
def execStorei (rd : Reg) (imm8 : Byte) (s : State) : Host.Outcome State Fault Refusal :=
  .next (checkedStore (s.reg rd) (immOperand imm8) s)

/-- R90: load `x[rd]` from address `x[rm]`. -/
def execLoad (rd rm : Reg) (s : State) : Host.Outcome State Fault Refusal :=
  .next (checkedLoad rd (s.reg rm) s)

end Sys2Proof.Machine
end

