-- ==== Sys2Proof/Machine/Shift.lean ====
section
/-! DEFINITION. Opcodes 0xB to 0xE: shifts and rotates (R107 to R112). The shifts read rm, write rd and
fill with 0 (D13). The bit shifted out goes into no flag (R97). -/

namespace Sys2Proof.Machine

/-- R107: `x[rm] >> 1`. -/
def execShr (rd rm : Reg) (s : State) : Host.Outcome State Fault Refusal :=
  .next (writeResult rd (s.reg rm >>> 1) (s.reg rm) 1#16 .other s)

/-- R108: `x[rm] >> n`. -/
def execShri (rd rm : Reg) (n : Nat) (s : State) : Host.Outcome State Fault Refusal :=
  .next (writeResult rd (s.reg rm >>> n) (s.reg rm) (BitVec.ofNat 16 n) .other s)

/-- R109: `trunc16(x[rm] << 1)`. -/
def execShl (rd rm : Reg) (s : State) : Host.Outcome State Fault Refusal :=
  .next (writeResult rd (s.reg rm <<< 1) (s.reg rm) 1#16 .other s)

/-- R110: `trunc16(x[rm] << n)`. -/
def execShli (rd rm : Reg) (n : Nat) (s : State) : Host.Outcome State Fault Refusal :=
  .next (writeResult rd (s.reg rm <<< n) (s.reg rm) (BitVec.ofNat 16 n) .other s)

/-- R111: `(v >> 1) | ((v & 1) << 15)`. -/
def execRor (rd rm : Reg) (s : State) : Host.Outcome State Fault Refusal :=
  .next (writeResult rd (s.reg rm >>> 1 ||| (s.reg rm &&& 1#16) <<< 15) (s.reg rm) 1#16 .other s)

/-- R112: `trunc16(v << 1) | (v >> 15)`. -/
def execRol (rd rm : Reg) (s : State) : Host.Outcome State Fault Refusal :=
  .next (writeResult rd (s.reg rm <<< 1 ||| s.reg rm >>> 15) (s.reg rm) 1#16 .other s)

end Sys2Proof.Machine
end

