-- ==== Sys2Proof/Machine/Dispatch.lean ====
section
/-! DEFINITION. The dispatch of an instruction to its meaning (R119). -/

namespace Sys2Proof.Machine

def exec (i : Instr) (s : State) : Host.Outcome State Fault Refusal :=
  match i with
  | .nop => Sys2Proof.Machine.execNop s
  | .push rn => Sys2Proof.Machine.execPush rn s
  | .pop rd => Sys2Proof.Machine.execPop rd s
  | .cmp rm rn => Sys2Proof.Machine.execCmp rm rn s
  | .jmp disp => Sys2Proof.Machine.execJmp disp s
  | .jeq disp => Sys2Proof.Machine.execJeq disp s
  | .jlt disp => Sys2Proof.Machine.execJlt disp s
  | .jgt disp => Sys2Proof.Machine.execJgt disp s
  | .mov rd rm => Sys2Proof.Machine.execMov rd rm s
  | .movi rd imm8 => Sys2Proof.Machine.execMovi rd imm8 s
  | .store rm rn => Sys2Proof.Machine.execStore rm rn s
  | .storei rd imm8 => Sys2Proof.Machine.execStorei rd imm8 s
  | .load rd rm => Sys2Proof.Machine.execLoad rd rm s
  | .add rd rm rn => Sys2Proof.Machine.execAdd rd rm rn s
  | .sub rd rm rn => Sys2Proof.Machine.execSub rd rm rn s
  | .mul rd rm rn => Sys2Proof.Machine.execMul rd rm rn s
  | .and rd rm rn => Sys2Proof.Machine.execAnd rd rm rn s
  | .or rd rm rn => Sys2Proof.Machine.execOr rd rm rn s
  | .not rd rm => Sys2Proof.Machine.execNot rd rm s
  | .xor rd rm rn => Sys2Proof.Machine.execXor rd rm rn s
  | .shr rd rm => Sys2Proof.Machine.execShr rd rm s
  | .shri rd rm sh3 => Sys2Proof.Machine.execShri rd rm sh3 s
  | .shl rd rm => Sys2Proof.Machine.execShl rd rm s
  | .shli rd rm sh3 => Sys2Proof.Machine.execShli rd rm sh3 s
  | .ror rd rm => Sys2Proof.Machine.execRor rd rm s
  | .rol rd rm => Sys2Proof.Machine.execRol rd rm s
  | .halt => Sys2Proof.Machine.execHalt s

end Sys2Proof.Machine
end

