-- ==== Sys2Proof/Machine/LoadPort.lean ====
section
/-! DEFINITION. The load interface and the host's transactions: rules R144 to R150, R153. -/

namespace Sys2Proof.Machine

/-- R147, R148 `LoadRecord(addr, word)` while RUN = IDLE: a valid record is written and counted; an
invalid one fails the whole load, and the records before it stay (D20). -/
def loadRecord (addr word : Word) (s : State) : State :=
  if validDataAddr addr then (s.storeWord addr word).countRecord
  else (s.emit .loadBadAddr addr).setRun .loadFailed

/-- R150 `Start` while RUN = IDLE: an empty load fails. -/
def startCore (s : State) : State :=
  if s.accepted = 0 then (s.emit .loadEmpty 0#16).setRun .loadFailed else s.setRun .running

/-- R159: the transaction handled at a clock edge while RUN = IDLE. -/
def idleEdge (a : HostAction) (s : State) : State :=
  match a with
  | .noAction => s
  | .rst => s
  | .loadRecord addr word => loadRecord addr word s
  | .start => startCore s

/-- R144 `rst`: every piece of the machine's state takes its reset value; what the host presents later is
not part of the core. A reset while RUNNING is outside the spec (R153) and refused by name. -/
def resetEdge (s : State) : Host.Outcome State Fault Refusal :=
  if s.run = .running then .refused .resetWhileRunning else .next (State.reset.setInputs s.inputs)

end Sys2Proof.Machine
end

