-- ==== Sys2Proof/Machine/Sequencer.lean ====
section
/-! DEFINITION. The sequencer and the clock edge: rules R114 to R122, R157, R159. -/

namespace Sys2Proof.Machine

/-- R44, R118: the word at PC, `memory[PC >> 1]`, without an alignment check (D5). -/
def fetchWord (s : State) : Word := s.mem.readWord s.pc

/-- R120: `PC <- trunc16(PC + 2)`, PC as `Execute` left it. -/
def advance (s : State) : State := s.setPc (s.pc + Config.insnBytes)

/-- R121: an illegal word stops the core in the step that fetched it. -/
def decodeFatal (w : Word) (s : State) : State := s.stop .faulted .decodeFatal w

/-- R119, R120: IR holds `w` already; the decoded instruction runs and PC advances. -/
def runWord (w : Word) (s : State) : Host.Outcome State Fault Refusal :=
  match decode w with
  | .error _ => .next (decodeFatal w s)
  | .ok i => andThen (exec i s) fun t => .next (advance t)

/-- R115: one step of the running sequencer. The range test comes before the sentinel test (D21), and the
sentinel is the halt step, never decoded (R71). -/
def sequencerStep (s : State) : Host.Outcome State Fault Refusal :=
  if s.pc.toNat < Config.memLimit then
    if fetchWord s = Config.haltWord then exec .halt s
    else runWord (fetchWord s) (s.setIr (fetchWord s))
  else .next (s.stop .halted .haltPcRange s.pc)

/-- One clock edge at which the host presents `a`. Outside IDLE a transaction is ignored (R146, R150), and
in a terminal run state nothing but reset has an effect (R143). -/
def clockEdge (a : HostAction) (s : State) : Host.Outcome State Fault Refusal :=
  if a = .rst then resetEdge s
  else
    match s.run with
    | .idle => .next (idleEdge a s)
    | .running => sequencerStep s
    | .halted => .next s
    | .faulted => .next s
    | .loadFailed => .next s

/-- The clock edge with what the host presents at it, which is then gone. -/
def clock (s : State) : Host.Outcome State Fault Refusal :=
  clockEdge (s.inputs.headD .noAction) (s.setInputs s.inputs.tail)

/-- The address of the next fetch, or the entry point of R145 where PC lies outside memory. -/
def fetchAddress (s : State) : Word := if s.pc.toNat < Config.memLimit then s.pc else Config.pcReset

/-- A running state whose next fetch reads the word `w`: a program loaded from outside the machine. -/
def placeWord (w : Word) (s : State) : State :=
  { s with run := .running, inputs := [], pc := fetchAddress s, mem := s.mem.writeWord (fetchAddress s) w }

end Sys2Proof.Machine
end

