-- ==== Sys2Proof/Machine/Step.lean ====
section
/-! DEFINITION. One step of the machine, and the state whose next step runs a given word. -/

namespace Sys2Proof.Machine

/-- One clock edge (R157). -/
def step (s : State) : Host.Outcome State Fault Refusal := clock s

/-- The word `w` of `nbits` bits, bits above them 0, stood where the next step fetches, with the core
RUNNING and the host silent: the load of R146 to R150 done from outside (log entry 5). -/
def State.withFetchWord (s : State) (nbits w : Nat) : State :=
  placeWord (BitVec.ofNat 16 (w % 2 ^ nbits)) s

end Sys2Proof.Machine
end

