-- ==== Sys2Proof/Machine/Ports.lean ====
section
/-! DEFINITION. The output ports as bits: `run_state`, `evt_valid`, `evt_code` and `evt_data` (R32, R126).
The observation port (R33) is `State` itself, and the report is `State.report`. -/

namespace Sys2Proof.Machine

/-- R32: `run_state`. -/
def runStateBits (r : RunState) : BitVec 3 :=
  match r with
  | .idle => 0#3
  | .running => 1#3
  | .halted => 2#3
  | .faulted => 3#3
  | .loadFailed => 4#3

/-- R126: `evt_code`. -/
def eventCodeBits (c : EventCode) : BitVec 4 :=
  match c with
  | .report => 1#4
  | .memWarn => 2#4
  | .stackOvf => 3#4
  | .stackUnf => 4#4
  | .decodeFatal => 5#4
  | .haltSentinel => 6#4
  | .haltPcRange => 7#4
  | .loadBadAddr => 8#4
  | .loadEmpty => 9#4

/-- R34, R126: `evt_valid`, `evt_code` and `evt_data` of the step from `s` to `t`: the event that step
appended, or code 0 and data 0 for none. -/
def eventOutput (s t : State) : BitVec 1 × BitVec 4 × Word :=
  match t.events.drop s.events.length with
  | [] => (0#1, 0#4, 0#16)
  | e :: _ => (1#1, eventCodeBits e.code, e.data)

end Sys2Proof.Machine
end

