-- ==== Sys2Proof/Safety.lean ====
section
/-! DEFINITION. What the claims speak of: legal states, the machine's invariant, the frames of an
instruction, what R16 and R24 say an instruction writes, and what a program can observe. -/

namespace Sys2Proof.Machine

/-- R22: SP is even and lies in [0x8000, 0x8200]. -/
def SpLegal (s : State) : Prop :=
  s.sp.toNat % 2 = 0 ∧ 0x8000 ≤ s.sp.toNat ∧ s.sp.toNat ≤ 0x8200

/-- The invariant of the machine: what every step from every such state keeps. -/
structure Inv (s : State) : Prop where
  /-- Memory is in its canonical form. -/
  memWf : s.mem.wf = true
  /-- R22. -/
  spLegal : SpLegal s
  /-- R29: IR never holds 0xFFFF. -/
  irNotSentinel : s.ir ≠ 0xFFFF#16
  /-- R93: Z and S are never set together. -/
  flagsExclusive : s.flags.zero = true → s.flags.sign = false
  /-- R28, R144: a memory cell that is not touched holds the reset fill. -/
  untouchedMemory : ∀ a : Nat, a < 2048 → s.memTouched.getLsbD (a / 2) = false → s.mem.readByte a = 0xFF#8
  /-- R28, R144: a stack cell that is not touched holds 0. -/
  untouchedStack : ∀ j : Fin 256, s.stackTouched.getLsbD j.val = false → s.stack.get j = 0#16
  /-- R47: every cell between SP and the base was pushed, so it is touched. -/
  liveTouched : ∀ j : Nat, j < stackDepth s.sp → s.stackTouched.getLsbD j = true

/-- R153: the host does not present `rst` while the core runs. -/
def HostBehaves (s : State) : Prop :=
  s.run = .running → s.inputs.head? ≠ some .rst

/-- No general register changes. -/
def SameRegs (s t : State) : Prop := ∀ r : Reg, t.reg r = s.reg r

/-- No general register but `rd` changes. -/
def SameRegsBut (rd : Reg) (s t : State) : Prop := ∀ r : Reg, r ≠ rd → t.reg r = s.reg r

/-- No byte of memory and no memory touched bit changes. -/
def SameMemory (s t : State) : Prop :=
  (∀ a : Nat, t.mem.readByte a = s.mem.readByte a) ∧ t.memTouched = s.memTouched

/-- SP, the stack words and their touched bits do not change. -/
def SameStack (s t : State) : Prop :=
  t.sp = s.sp ∧ t.stack = s.stack ∧ t.stackTouched = s.stackTouched

/-- IR, RUN, the record count and the host's coming actions do not change. -/
def SameControl (s t : State) : Prop :=
  t.ir = s.ir ∧ t.run = s.run ∧ t.accepted = s.accepted ∧ t.inputs = s.inputs

/-- No event is emitted and no report made. -/
def SameOutput (s t : State) : Prop := t.events = s.events ∧ t.reports = s.reports

/-- Exactly the event `(code, data)` is emitted and no report made. -/
def EmitsOnly (code : EventCode) (data : Word) (s t : State) : Prop :=
  t.events = s.events ++ [⟨code, data⟩] ∧ t.reports = s.reports

/-- Only `rd` and the flags may change: the frame of an ALU instruction. -/
def AluFrame (rd : Reg) (s t : State) : Prop :=
  t.pc = s.pc ∧ SameRegsBut rd s t ∧ SameMemory s t ∧ SameStack s t ∧ SameControl s t ∧ SameOutput s t

/-- Only PC may change: the frame of a jump. -/
def JumpFrame (s t : State) : Prop :=
  t.flags = s.flags ∧ SameRegs s t ∧ SameMemory s t ∧ SameStack s t ∧ SameControl s t ∧ SameOutput s t

/-- Only `rd` may change: the frame of a move. -/
def MoveFrame (rd : Reg) (s t : State) : Prop :=
  t.pc = s.pc ∧ t.flags = s.flags ∧ SameRegsBut rd s t ∧ SameMemory s t ∧ SameStack s t ∧ SameControl s t ∧
    SameOutput s t

/-- The event `(code, data)` is emitted and nothing else changes. -/
def WarnsOnly (code : EventCode) (data : Word) (s t : State) : Prop :=
  t.pc = s.pc ∧ t.flags = s.flags ∧ SameRegs s t ∧ SameMemory s t ∧ SameStack s t ∧ SameControl s t ∧
    EmitsOnly code data s t

/-- The word `v` is stored at the even byte address `a`: its two bytes change, its cell becomes touched, and
nothing else changes. -/
def StoresWord (a v : Word) (s t : State) : Prop :=
  t.mem.readWord a = v ∧
    (∀ x : Nat, x ≠ a.toNat → x ≠ a.toNat + 1 → t.mem.readByte x = s.mem.readByte x) ∧
    (∀ k : Nat, t.memTouched.getLsbD k = true ↔ s.memTouched.getLsbD k = true ∨ k = a.toNat / 2) ∧
    t.mem.wf = true ∧ t.pc = s.pc ∧ t.flags = s.flags ∧ SameRegs s t ∧ SameStack s t ∧ SameControl s t ∧
    SameOutput s t

/-- R93, R97: Z and S from the result, C and V clear. -/
def LogicFlags (r : Word) (f : Flags) : Prop :=
  (f.zero = true ↔ r.toNat = 0) ∧ (f.sign = true ↔ 0x8000 ≤ r.toNat) ∧ f.carry = false ∧ f.overflow = false

/-- R63: the signed displacement of a jump word, w[10:2] read as two's complement. -/
def dispOfWord (w : Word) : Int :=
  if w.toNat / 4 % 512 < 256 then (w.toNat / 4 % 512 : Nat) else (w.toNat / 4 % 512 : Nat) - 512

/-- R16: the register an instruction may write. -/
def destOf (i : Instr) : Option Reg :=
  match i with
  | .nop => none
  | .push _ => none
  | .pop rd => some rd
  | .cmp _ _ => none
  | .jmp _ => none
  | .jeq _ => none
  | .jlt _ => none
  | .jgt _ => none
  | .mov rd _ => some rd
  | .movi rd _ => some rd
  | .store _ _ => none
  | .storei _ _ => none
  | .load rd _ => some rd
  | .add rd _ _ => some rd
  | .sub rd _ _ => some rd
  | .mul rd _ _ => some rd
  | .and rd _ _ => some rd
  | .or rd _ _ => some rd
  | .not rd _ => some rd
  | .xor rd _ _ => some rd
  | .shr rd _ => some rd
  | .shri rd _ _ => some rd
  | .shl rd _ => some rd
  | .shli rd _ _ => some rd
  | .ror rd _ => some rd
  | .rol rd _ => some rd
  | .halt => none

/-- R24: the instructions that write the flags (D6). -/
def writesFlags (i : Instr) : Bool :=
  match i with
  | .nop => false
  | .push _ => false
  | .pop _ => false
  | .cmp _ _ => true
  | .jmp _ => false
  | .jeq _ => false
  | .jlt _ => false
  | .jgt _ => false
  | .mov _ _ => false
  | .movi _ _ => false
  | .store _ _ => false
  | .storei _ _ => false
  | .load _ _ => false
  | .add _ _ _ => true
  | .sub _ _ _ => true
  | .mul _ _ _ => true
  | .and _ _ _ => true
  | .or _ _ _ => true
  | .not _ _ => true
  | .xor _ _ _ => true
  | .shr _ _ => true
  | .shri _ _ _ => true
  | .shl _ _ => true
  | .shli _ _ _ => true
  | .ror _ _ => true
  | .rol _ _ => true
  | .halt => false

/-- R38, R88, R89: the byte address an instruction stores a memory word to. -/
def storeTarget (i : Instr) (s : State) : Option Word :=
  match i with
  | .nop => none
  | .push _ => none
  | .pop _ => none
  | .cmp _ _ => none
  | .jmp _ => none
  | .jeq _ => none
  | .jlt _ => none
  | .jgt _ => none
  | .mov _ _ => none
  | .movi _ _ => none
  | .store rm _ => some (s.reg rm)
  | .storei rd _ => some (s.reg rd)
  | .load _ _ => none
  | .add _ _ _ => none
  | .sub _ _ _ => none
  | .mul _ _ _ => none
  | .and _ _ _ => none
  | .or _ _ _ => none
  | .not _ _ => none
  | .xor _ _ _ => none
  | .shr _ _ => none
  | .shri _ _ _ => none
  | .shl _ _ => none
  | .shli _ _ _ => none
  | .ror _ _ => none
  | .rol _ _ => none
  | .halt => none

/-- R81 to R84: the displacement of a jump that is taken under these flags. -/
def takenJump (i : Instr) (f : Flags) : Option Int :=
  match i with
  | .nop => none
  | .push _ => none
  | .pop _ => none
  | .cmp _ _ => none
  | .jmp d => some d
  | .jeq d => if f.zero && !f.sign then some d else none
  | .jlt d => if f.sign && !f.zero then some d else none
  | .jgt d => if !f.zero && !f.sign then some d else none
  | .mov _ _ => none
  | .movi _ _ => none
  | .store _ _ => none
  | .storei _ _ => none
  | .load _ _ => none
  | .add _ _ _ => none
  | .sub _ _ _ => none
  | .mul _ _ _ => none
  | .and _ _ _ => none
  | .or _ _ _ => none
  | .not _ _ => none
  | .xor _ _ _ => none
  | .shr _ _ => none
  | .shri _ _ _ => none
  | .shl _ _ => none
  | .shli _ _ _ => none
  | .ror _ _ => none
  | .rol _ _ => none
  | .halt => none

/-- R60, R69: the bits of its word that an instruction's form reads; every other bit is ignored. -/
def readBits (i : Instr) : Word :=
  match i with
  | .nop => 0xFFFF#16
  | .push _ => 0xF81F#16
  | .pop _ => 0xFF03#16
  | .cmp _ _ => 0xF8FF#16
  | .jmp _ => 0xFFFF#16
  | .jeq _ => 0xFFFF#16
  | .jlt _ => 0xFFFF#16
  | .jgt _ => 0xFFFF#16
  | .mov _ _ => 0xFFE0#16
  | .movi _ _ => 0xFFFF#16
  | .store _ _ => 0xF8FC#16
  | .storei _ _ => 0xFFFF#16
  | .load _ _ => 0xFFE0#16
  | .add _ _ _ => 0xFFFC#16
  | .sub _ _ _ => 0xFFFC#16
  | .mul _ _ _ => 0xFFFC#16
  | .and _ _ _ => 0xFFFC#16
  | .or _ _ _ => 0xFFFC#16
  | .not _ _ => 0xFFE0#16
  | .xor _ _ _ => 0xFFFC#16
  | .shr _ _ => 0xFFE0#16
  | .shri _ _ _ => 0xFFE7#16
  | .shl _ _ => 0xFFE0#16
  | .shli _ _ _ => 0xFFE7#16
  | .ror _ _ => 0xFFE0#16
  | .rol _ _ => 0xFFE0#16
  | .halt => 0xFFFF#16

/-- Two states a program and the host's transactions cannot tell apart: they may differ in IR, in C and V,
in the touched bits and in the events and reports made so far (R6, R21, R28, R29). -/
structure ProgramEq (s t : State) : Prop where
  regs : s.regs = t.regs
  pc : s.pc = t.pc
  sp : s.sp = t.sp
  zero : s.flags.zero = t.flags.zero
  sign : s.flags.sign = t.flags.sign
  run : s.run = t.run
  mem : s.mem = t.mem
  stack : s.stack = t.stack
  accepted : s.accepted = t.accepted
  inputs : s.inputs = t.inputs

end Sys2Proof.Machine
end

