-- ==== Sys2Proof/WellFormed.lean ====
section
/-! DEFINITION. Which instruction terms have an encoding: a displacement must fit the 9-bit field of R63
and a shift count the 3-bit field of R62. Every register number and every 8-bit immediate is legal (R64,
R61), and their types say so. -/

namespace Sys2Proof

/-- R63: a displacement lies in −256..+255. -/
def dispOk (d : Int) : Bool := decide (-256 ≤ d ∧ d ≤ 255)

/-- R62: an immediate shift count lies in 0..7. -/
def shiftOk (n : Nat) : Bool := decide (n ≤ 7)

/-- The check of one instruction. -/
def wellFormed (i : Instr) : Bool :=
  match i with
  | .nop => true
  | .push _ => true
  | .pop _ => true
  | .cmp _ _ => true
  | .jmp d => dispOk d
  | .jeq d => dispOk d
  | .jlt d => dispOk d
  | .jgt d => dispOk d
  | .mov _ _ => true
  | .movi _ _ => true
  | .store _ _ => true
  | .storei _ _ => true
  | .load _ _ => true
  | .add _ _ _ => true
  | .sub _ _ _ => true
  | .mul _ _ _ => true
  | .and _ _ _ => true
  | .or _ _ _ => true
  | .not _ _ => true
  | .xor _ _ _ => true
  | .shr _ _ => true
  | .shri _ _ n => shiftOk n
  | .shl _ _ => true
  | .shli _ _ n => shiftOk n
  | .ror _ _ => true
  | .rol _ _ => true
  | .halt => true

/-- An instruction that some word encodes. -/
abbrev WellFormed (i : Instr) : Prop := wellFormed i = true

end Sys2Proof
end

