-- ==== Sys2Proof/Certificates/Slice0/Obligations.lean ====
section
/-! DEFINITION. The statements for the provers, from the numbered rules of spec/. A statement that rests on
one of the spec's own decisions (`92_eei_decisions.md`, D<n>) names it. -/

open Sys2Proof Sys2Proof.Machine

/-! ## Encoding -/

/-- Every well-formed instruction, with every operand at every value its encoding admits, is what its own
encoding decodes to (R60 to R65). -/
def Obligations.DecodeEncode : Prop :=
  ∀ i : Instr, WellFormed i → decode (encode i) = .ok i

/-- A word that decodes carries its instruction's encoding in the bits the form reads, and the instruction
is well-formed (R60). The other bits are ignored by decision D8. -/
def Obligations.EncodeDecode : Prop :=
  ∀ (w : Word) (i : Instr), decode w = .ok i → WellFormed i ∧ encode i = w &&& readBits i

/-- R69 (decision D8): a word that agrees with a legal word on the bits its form reads decodes to the same
instruction. -/
def Obligations.UnreadBitsIgnored : Prop :=
  ∀ (w w' : Word) (i : Instr), decode w = .ok i → w' &&& readBits i = w &&& readBits i → decode w' = .ok i

/-- R68 (decision D9): each of the four cases of illegal words, in terms of op, i and sel. -/
def Obligations.IllegalWords : Prop :=
  ∀ w : Word,
    (decode w = .error .op0SelectorZero ↔ w.toNat / 2048 = 0 ∧ w.toNat % 4 = 0 ∧ w.toNat ≠ 0) ∧
    (decode w = .error .op3Immediate ↔ w.toNat / 4096 = 0x3 ∧ w.toNat / 2048 % 2 = 1) ∧
    (decode w = .error .noImmediateForm ↔
      w.toNat / 4096 ∈ [0x4, 0x5, 0x6, 0x7, 0x8, 0x9, 0xA, 0xD, 0xE] ∧ w.toNat / 2048 % 2 = 1) ∧
    (decode w = .error .opFReserved ↔ w.toNat / 4096 = 0xF ∧ w.toNat ≠ 0xFFFF)

/-- Words of the decoding vectors V12 and of the instruction rules' examples. -/
def Obligations.DecodeSpecWords : Prop :=
  decode 0x0000#16 = .ok .nop ∧ decode 0x07FD#16 = .ok (.push 7) ∧ decode 0x0402#16 = .ok (.pop 4) ∧
  decode 0x002B#16 = .ok (.cmp 1 2) ∧ decode 0x0FF0#16 = .ok (.jmp (-4)) ∧ decode 0x0819#16 = .ok (.jeq 6) ∧
  decode 0x0822#16 = .ok (.jlt 8) ∧ decode 0x0FFF#16 = .ok (.jgt (-1)) ∧ decode 0x1220#16 = .ok (.mov 2 1) ∧
  decode 0x1A03#16 = .ok (.movi 2 3#8) ∧ decode 0x2028#16 = .ok (.store 1 2) ∧
  decode 0x2B7F#16 = .ok (.storei 3 0x7F#8) ∧ decode 0x3420#16 = .ok (.load 4 1) ∧
  decode 0x4244#16 = .ok (.add 2 2 1) ∧ decode 0x5328#16 = .ok (.sub 3 1 2) ∧ decode 0x9100#16 = .ok (.not 1 0) ∧
  decode 0xB943#16 = .ok (.shri 1 2 3) ∧ decode 0xCFE7#16 = .ok (.shli 7 7 7) ∧
  decode 0xD140#16 = .ok (.ror 1 2) ∧ decode 0xFFFF#16 = .ok .halt ∧
  decode 0x0004#16 = .error .op0SelectorZero ∧ decode 0x3800#16 = .error .op3Immediate ∧
  decode 0x4800#16 = .error .noImmediateForm ∧ decode 0xFFFE#16 = .error .opFReserved

/-! ## Opcode 0x0 -/

/-- R76: the word 0x0000, and of the words with op = 0, i = 0 and sel = 0 no other, is NOP; it emits
REPORT(PC) and makes a state report (kept in a list, log entry 6), and nothing else changes; the sequencer then
advances PC by 2. That a running core ignores a transaction presented at that edge is R146 and R150 (decision
D1), that it is gone after its edge the model's choice (log entry 2); `rst` there is outside the spec (R153). -/
def Obligations.NopRule : Prop :=
  (∀ w : Word, decode w = .ok .nop ↔ w = 0x0000#16) ∧
  (∀ w : Word, w.toNat / 2048 = 0 → w.toNat % 4 = 0 → w ≠ 0x0000#16 → ∃ e, decode w = .error e) ∧
  (∀ s : State, ∃ t, exec .nop s = .next t ∧
    t.events = s.events ++ [⟨.report, s.pc⟩] ∧ t.reports = s.reports ++ [s.report] ∧ t.pc = s.pc ∧
    t.flags = s.flags ∧ SameRegs s t ∧ SameMemory s t ∧ SameStack s t ∧ SameControl s t) ∧
  (∀ s : State, s.run = .running → s.inputs.head? ≠ some .rst → s.pc.toNat < 2048 → fetchWord s = 0x0000#16 →
    ∃ t, step s = .next t ∧ t.pc = s.pc + 2#16 ∧ t.events = s.events ++ [⟨.report, s.pc⟩] ∧
      t.inputs = s.inputs.tail)

/-- R77 with R48 and R50: the words of PUSH; below depth 256 SP falls by 2 and the cell of the new SP takes
x[rn]; at SP = 0x8000 only STACK_OVF(SP) is emitted. The array index of a cell is the spec's decision D14,
and that PUSH writes no flag is its decision D6. -/
def Obligations.PushRule : Prop :=
  (∀ w : Word, w &&& 0xF803#16 = 0x0001#16 →
    ∃ rn : Reg, decode w = .ok (.push rn) ∧ rn.val = w.toNat / 4 % 8) ∧
  (∀ (rn : Reg) (s : State), SpLegal s → s.sp.toNat ≠ 0x8000 →
    ∃ t, exec (.push rn) s = .next t ∧ t.sp.toNat = s.sp.toNat - 2 ∧
      (∀ j : Fin 256, t.stack.get j =
        if j.val = (0x8200 - t.sp.toNat) / 2 - 1 then s.reg rn else s.stack.get j) ∧
      (∀ j : Nat, t.stackTouched.getLsbD j = true ↔
        s.stackTouched.getLsbD j = true ∨ j = (0x8200 - t.sp.toNat) / 2 - 1) ∧
      t.pc = s.pc ∧ t.flags = s.flags ∧ SameRegs s t ∧ SameMemory s t ∧ SameControl s t ∧ SameOutput s t) ∧
  (∀ (rn : Reg) (s : State), s.sp.toNat = 0x8000 →
    ∃ t, exec (.push rn) s = .next t ∧ WarnsOnly .stackOvf s.sp s t)

/-- R78 with R49 and R50: the words of POP; with a cell on the stack rd takes it and SP rises by 2, the cell
and its touched bit staying; at SP ≥ 0x8200 STACK_UNF(SP) is emitted and rd takes 0 (decision D10), SP
staying. No flag is written (decision D6); the array index of a cell is decision D14. -/
def Obligations.PopRule : Prop :=
  (∀ w : Word, w &&& 0xF803#16 = 0x0002#16 →
    ∃ rd : Reg, decode w = .ok (.pop rd) ∧ rd.val = w.toNat / 256 % 8) ∧
  (∀ (rd : Reg) (s : State), SpLegal s → s.sp.toNat ≠ 0x8200 →
    ∃ t, exec (.pop rd) s = .next t ∧ t.sp.toNat = s.sp.toNat + 2 ∧
      (∀ j : Fin 256, j.val = (0x8200 - s.sp.toNat) / 2 - 1 → t.reg rd = s.stack.get j) ∧
      t.stack = s.stack ∧ t.stackTouched = s.stackTouched ∧ t.pc = s.pc ∧ t.flags = s.flags ∧
      SameRegsBut rd s t ∧ SameMemory s t ∧ SameControl s t ∧ SameOutput s t) ∧
  (∀ (rd : Reg) (s : State), 0x8200 ≤ s.sp.toNat →
    ∃ t, exec (.pop rd) s = .next t ∧ t.reg rd = 0x0000#16 ∧ SameStack s t ∧ t.pc = s.pc ∧
      t.flags = s.flags ∧ SameRegsBut rd s t ∧ SameMemory s t ∧ SameControl s t ∧ EmitsOnly .stackUnf s.sp s t)

/-- R79: the words of CMP, and its flags: those of the 16-bit difference, by the subtract rules (R93, R95).
No register is written. -/
def Obligations.CmpRule : Prop :=
  (∀ w : Word, w &&& 0xF803#16 = 0x0003#16 →
    ∃ rm rn : Reg, decode w = .ok (.cmp rm rn) ∧ rm.val = w.toNat / 32 % 8 ∧ rn.val = w.toNat / 4 % 8) ∧
  (∀ (rm rn : Reg) (s : State), ∃ t, exec (.cmp rm rn) s = .next t ∧
    (t.flags.zero = true ↔ (s.reg rm).toNat = (s.reg rn).toNat) ∧
    (t.flags.sign = true ↔ 0x8000 ≤ ((s.reg rm).toNat + 65536 - (s.reg rn).toNat) % 65536) ∧
    (t.flags.carry = true ↔ (s.reg rn).toNat ≤ (s.reg rm).toNat) ∧
    (t.flags.overflow = true ↔
      (s.reg rm).msb ≠ (s.reg rn).msb ∧ (s.reg rm - s.reg rn).msb ≠ (s.reg rm).msb) ∧
    t.pc = s.pc ∧ SameRegs s t ∧ SameMemory s t ∧ SameStack s t ∧ SameControl s t ∧ SameOutput s t)

/-- R81 with R80: the words of JMP, and the branch write `PC + disp - 2` modulo 2^16; nothing else changes.
The displacement counts bytes (decision D4) and all PC arithmetic wraps (decision D3). -/
def Obligations.JmpRule : Prop :=
  (∀ w : Word, w &&& 0xF803#16 = 0x0800#16 → decode w = .ok (.jmp (dispOfWord w))) ∧
  (∀ (d : Int) (s : State), ∃ t, exec (.jmp d) s = .next t ∧
    (t.pc.toNat : Int) = ((s.pc.toNat : Int) + d - 2) % 65536 ∧ JumpFrame s t)

/-- R82, R83, R84 with R80: the words of the three conditional jumps, the condition on Z and S under which
each writes `PC + disp - 2`, and that PC is unchanged otherwise. Decisions D3 and D4, as for JMP. -/
def Obligations.ConditionalJumpRules : Prop :=
  (∀ w : Word,
    (w &&& 0xF803#16 = 0x0801#16 → decode w = .ok (.jeq (dispOfWord w))) ∧
    (w &&& 0xF803#16 = 0x0802#16 → decode w = .ok (.jlt (dispOfWord w))) ∧
    (w &&& 0xF803#16 = 0x0803#16 → decode w = .ok (.jgt (dispOfWord w)))) ∧
  (∀ (d : Int) (s : State),
    (∃ t, exec (.jeq d) s = .next t ∧ JumpFrame s t ∧
      (s.flags.zero = true ∧ s.flags.sign = false → (t.pc.toNat : Int) = ((s.pc.toNat : Int) + d - 2) % 65536) ∧
      (¬(s.flags.zero = true ∧ s.flags.sign = false) → t.pc = s.pc)) ∧
    (∃ t, exec (.jlt d) s = .next t ∧ JumpFrame s t ∧
      (s.flags.sign = true ∧ s.flags.zero = false → (t.pc.toNat : Int) = ((s.pc.toNat : Int) + d - 2) % 65536) ∧
      (¬(s.flags.sign = true ∧ s.flags.zero = false) → t.pc = s.pc)) ∧
    (∃ t, exec (.jgt d) s = .next t ∧ JumpFrame s t ∧
      (s.flags.zero = false ∧ s.flags.sign = false → (t.pc.toNat : Int) = ((s.pc.toNat : Int) + d - 2) % 65536) ∧
      (¬(s.flags.zero = false ∧ s.flags.sign = false) → t.pc = s.pc)))

/-! ## Moves and memory -/

/-- R86: the words of MOV; rd takes x[rm] and nothing else changes. That MOV writes no flag is the spec's
decision D6. -/
def Obligations.MovRule : Prop :=
  (∀ w : Word, w &&& 0xF800#16 = 0x1000#16 →
    ∃ rd rm : Reg, decode w = .ok (.mov rd rm) ∧ rd.val = w.toNat / 256 % 8 ∧ rm.val = w.toNat / 32 % 8) ∧
  (∀ (rd rm : Reg) (s : State), ∃ t, exec (.mov rd rm) s = .next t ∧ t.reg rd = s.reg rm ∧ MoveFrame rd s t)

/-- R87: the words of MOVI; rd takes the zero-extended 8-bit immediate and nothing else changes. -/
def Obligations.MoviRule : Prop :=
  (∀ w : Word, w &&& 0xF800#16 = 0x1800#16 →
    ∃ (rd : Reg) (k : Byte), decode w = .ok (.movi rd k) ∧ rd.val = w.toNat / 256 % 8 ∧ k.toNat = w.toNat % 256) ∧
  (∀ (rd : Reg) (k : Byte) (s : State), ∃ t, exec (.movi rd k) s = .next t ∧
    (t.reg rd).toNat = k.toNat ∧ MoveFrame rd s t)

/-- R88 with R42: the words of STORE; at an even address below 0x0800 x[rn] is stored and the cell marked
touched; at any other only MEM_WARN(address) is emitted; a later fetch of the word reads what was stored (R56,
derived by the spec), at an odd PC too (R44, decision D5). Memory is in its canonical form before and after,
and the word's bytes are its two cells: the form is the model's choice (log entry 1). -/
def Obligations.StoreRule : Prop :=
  (∀ w : Word, w &&& 0xF800#16 = 0x2000#16 →
    ∃ rm rn : Reg, decode w = .ok (.store rm rn) ∧ rm.val = w.toNat / 32 % 8 ∧ rn.val = w.toNat / 4 % 8) ∧
  (∀ (rm rn : Reg) (s : State), s.mem.wf = true → (s.reg rm).toNat % 2 = 0 → (s.reg rm).toNat < 0x0800 →
    ∃ t, exec (.store rm rn) s = .next t ∧ StoresWord (s.reg rm) (s.reg rn) s t ∧
      (∀ p : Word, p.toNat / 2 = (s.reg rm).toNat / 2 → fetchWord { t with pc := p } = s.reg rn)) ∧
  (∀ (rm rn : Reg) (s : State), ((s.reg rm).toNat % 2 = 1 ∨ 0x0800 ≤ (s.reg rm).toNat) →
    ∃ t, exec (.store rm rn) s = .next t ∧ WarnsOnly .memWarn (s.reg rm) s t)

/-- R89 with R42: the words of STOREI; at an even address below 0x0800 the zero-extended immediate (decision
D12) is stored, never the sentinel; at any other only MEM_WARN(address) is emitted. Memory is in its
canonical form before and after, the model's choice (log entry 1). -/
def Obligations.StoreiRule : Prop :=
  (∀ w : Word, w &&& 0xF800#16 = 0x2800#16 →
    ∃ (rd : Reg) (k : Byte), decode w = .ok (.storei rd k) ∧ rd.val = w.toNat / 256 % 8 ∧ k.toNat = w.toNat % 256) ∧
  (∀ (rd : Reg) (k : Byte) (s : State), s.mem.wf = true → (s.reg rd).toNat % 2 = 0 → (s.reg rd).toNat < 0x0800 →
    ∃ t, exec (.storei rd k) s = .next t ∧ StoresWord (s.reg rd) (BitVec.ofNat 16 k.toNat) s t ∧
      t.mem.readWord (s.reg rd) ≠ 0xFFFF#16) ∧
  (∀ (rd : Reg) (k : Byte) (s : State), ((s.reg rd).toNat % 2 = 1 ∨ 0x0800 ≤ (s.reg rd).toNat) →
    ∃ t, exec (.storei rd k) s = .next t ∧ WarnsOnly .memWarn (s.reg rd) s t)

/-- R90 with R42: the words of LOAD; at an even address below 0x0800 rd takes the memory word; at any other
MEM_WARN(address) is emitted and rd keeps its value (decision D11). No flag is written (decision D6). That a
word's low byte lies in the cell of its even address is the model's choice (log entry 1). -/
def Obligations.LoadRule : Prop :=
  (∀ w : Word, w &&& 0xF800#16 = 0x3000#16 →
    ∃ rd rm : Reg, decode w = .ok (.load rd rm) ∧ rd.val = w.toNat / 256 % 8 ∧ rm.val = w.toNat / 32 % 8) ∧
  (∀ w : Word, w &&& 0xF800#16 = 0x3800#16 → ∃ e, decode w = .error e) ∧
  (∀ (rd rm : Reg) (s : State), (s.reg rm).toNat % 2 = 0 → (s.reg rm).toNat < 0x0800 →
    ∃ t, exec (.load rd rm) s = .next t ∧
      (t.reg rd).toNat = (s.mem.readByte (s.reg rm).toNat).toNat + 256 * (s.mem.readByte ((s.reg rm).toNat + 1)).toNat ∧
      MoveFrame rd s t) ∧
  (∀ (rd rm : Reg) (s : State), ((s.reg rm).toNat % 2 = 1 ∨ 0x0800 ≤ (s.reg rm).toNat) →
    ∃ t, exec (.load rd rm) s = .next t ∧ WarnsOnly .memWarn (s.reg rm) s t)

/-! ## Arithmetic and logic -/

/-- R99 with R93 and R94: the words of ADD, its sum modulo 2^16 and its four flags. -/
def Obligations.AddRule : Prop :=
  (∀ w : Word, w &&& 0xF800#16 = 0x4000#16 →
    ∃ rd rm rn : Reg, decode w = .ok (.add rd rm rn) ∧ rd.val = w.toNat / 256 % 8 ∧ rm.val = w.toNat / 32 % 8 ∧
      rn.val = w.toNat / 4 % 8) ∧
  (∀ (rd rm rn : Reg) (s : State), ∃ t, exec (.add rd rm rn) s = .next t ∧
    (t.reg rd).toNat = ((s.reg rm).toNat + (s.reg rn).toNat) % 65536 ∧
    (t.flags.zero = true ↔ (t.reg rd).toNat = 0) ∧ (t.flags.sign = true ↔ 0x8000 ≤ (t.reg rd).toNat) ∧
    (t.flags.carry = true ↔ 0xFFFF < (s.reg rm).toNat + (s.reg rn).toNat) ∧
    (t.flags.overflow = true ↔ (s.reg rm).msb = (s.reg rn).msb ∧ (t.reg rd).msb ≠ (s.reg rm).msb) ∧
    AluFrame rd s t)

/-- R100 with R93 and R95: the words of SUB, its difference modulo 2^16 and its four flags. -/
def Obligations.SubRule : Prop :=
  (∀ w : Word, w &&& 0xF800#16 = 0x5000#16 →
    ∃ rd rm rn : Reg, decode w = .ok (.sub rd rm rn) ∧ rd.val = w.toNat / 256 % 8 ∧ rm.val = w.toNat / 32 % 8 ∧
      rn.val = w.toNat / 4 % 8) ∧
  (∀ (rd rm rn : Reg) (s : State), ∃ t, exec (.sub rd rm rn) s = .next t ∧
    (t.reg rd).toNat = ((s.reg rm).toNat + 65536 - (s.reg rn).toNat) % 65536 ∧
    (t.flags.zero = true ↔ (t.reg rd).toNat = 0) ∧ (t.flags.sign = true ↔ 0x8000 ≤ (t.reg rd).toNat) ∧
    (t.flags.carry = true ↔ (s.reg rn).toNat ≤ (s.reg rm).toNat) ∧
    (t.flags.overflow = true ↔ (s.reg rm).msb ≠ (s.reg rn).msb ∧ (t.reg rd).msb ≠ (s.reg rm).msb) ∧
    AluFrame rd s t)

/-- R101 with R93 and R96: the words of MUL, the low 16 bits of its unsigned product and its flags. -/
def Obligations.MulRule : Prop :=
  (∀ w : Word, w &&& 0xF800#16 = 0x6000#16 →
    ∃ rd rm rn : Reg, decode w = .ok (.mul rd rm rn) ∧ rd.val = w.toNat / 256 % 8 ∧ rm.val = w.toNat / 32 % 8 ∧
      rn.val = w.toNat / 4 % 8) ∧
  (∀ (rd rm rn : Reg) (s : State), ∃ t, exec (.mul rd rm rn) s = .next t ∧
    (t.reg rd).toNat = ((s.reg rm).toNat * (s.reg rn).toNat) % 65536 ∧
    (t.flags.zero = true ↔ (t.reg rd).toNat = 0) ∧ (t.flags.sign = true ↔ 0x8000 ≤ (t.reg rd).toNat) ∧
    (t.flags.carry = true ↔ 0xFFFF < (s.reg rm).toNat * (s.reg rn).toNat) ∧
    (t.flags.overflow = true ↔ 0xFFFF < (s.reg rm).toNat * (s.reg rn).toNat) ∧
    AluFrame rd s t)

/-- R102, R103, R105 with R97: the words of AND, OR and XOR, every bit of their results, and their flags. -/
def Obligations.AndOrXorRules : Prop :=
  (∀ w : Word,
    ∃ rd rm rn : Reg, rd.val = w.toNat / 256 % 8 ∧ rm.val = w.toNat / 32 % 8 ∧ rn.val = w.toNat / 4 % 8 ∧
      (w &&& 0xF800#16 = 0x7000#16 → decode w = .ok (.and rd rm rn)) ∧
      (w &&& 0xF800#16 = 0x8000#16 → decode w = .ok (.or rd rm rn)) ∧
      (w &&& 0xF800#16 = 0xA000#16 → decode w = .ok (.xor rd rm rn))) ∧
  (∀ (rd rm rn : Reg) (s : State),
    (∃ t, exec (.and rd rm rn) s = .next t ∧
      (∀ k : Nat, (t.reg rd).getLsbD k = ((s.reg rm).getLsbD k && (s.reg rn).getLsbD k)) ∧
      LogicFlags (t.reg rd) t.flags ∧ AluFrame rd s t) ∧
    (∃ t, exec (.or rd rm rn) s = .next t ∧
      (∀ k : Nat, (t.reg rd).getLsbD k = ((s.reg rm).getLsbD k || (s.reg rn).getLsbD k)) ∧
      LogicFlags (t.reg rd) t.flags ∧ AluFrame rd s t) ∧
    (∃ t, exec (.xor rd rm rn) s = .next t ∧
      (∀ k : Nat, (t.reg rd).getLsbD k = ((s.reg rm).getLsbD k ^^ (s.reg rn).getLsbD k)) ∧
      LogicFlags (t.reg rd) t.flags ∧ AluFrame rd s t))

/-- R104 with R97: the words of NOT, its 16-bit complement and its flags. -/
def Obligations.NotRule : Prop :=
  (∀ w : Word, w &&& 0xF800#16 = 0x9000#16 →
    ∃ rd rm : Reg, decode w = .ok (.not rd rm) ∧ rd.val = w.toNat / 256 % 8 ∧ rm.val = w.toNat / 32 % 8) ∧
  (∀ (rd rm : Reg) (s : State), ∃ t, exec (.not rd rm) s = .next t ∧
    (t.reg rd).toNat = 0xFFFF - (s.reg rm).toNat ∧ LogicFlags (t.reg rd) t.flags ∧ AluFrame rd s t)

/-- R94: Carry and Overflow of an addition. C is the carry out of bit 15; V, defined by the sign bits, is
two's-complement signed overflow. -/
def Obligations.AddFlags : Prop :=
  ∀ a b : Word,
    ((computeFlags (a + b) a b .add).carry = true ↔ 0xFFFF < a.toNat + b.toNat) ∧
    ((computeFlags (a + b) a b .add).overflow = true ↔ a.msb = b.msb ∧ (a + b).msb ≠ a.msb) ∧
    ((computeFlags (a + b) a b .add).overflow = true ↔
      a.toInt + b.toInt < -32768 ∨ 32767 < a.toInt + b.toInt)

/-- R95: Carry and Overflow of a subtraction. C = 1 means no borrow, and C = 1 when a = b. The last clause
(V is signed overflow) is read from the definition, and R95 does not say it. -/
def Obligations.SubtractFlags : Prop :=
  ∀ a b : Word,
    ((computeFlags (a - b) a b .subtract).carry = true ↔ b.toNat ≤ a.toNat) ∧
    (computeFlags (a - a) a a .subtract).carry = true ∧
    ((computeFlags (a - b) a b .subtract).overflow = true ↔ a.msb ≠ b.msb ∧ (a - b).msb ≠ a.msb) ∧
    ((computeFlags (a - b) a b .subtract).overflow = true ↔
      a.toInt - b.toInt < -32768 ∨ 32767 < a.toInt - b.toInt)

/-! ## Shifts and rotates -/

/-- R107, R109 with R97: the words of SHR and SHL, their results and flags. Source rm, destination rd and
the zero fill are the spec's decision D13. -/
def Obligations.ShiftByOneRules : Prop :=
  (∀ w : Word,
    ∃ rd rm : Reg, rd.val = w.toNat / 256 % 8 ∧ rm.val = w.toNat / 32 % 8 ∧
      (w &&& 0xF800#16 = 0xB000#16 → decode w = .ok (.shr rd rm)) ∧
      (w &&& 0xF800#16 = 0xC000#16 → decode w = .ok (.shl rd rm))) ∧
  (∀ (rd rm : Reg) (s : State),
    (∃ t, exec (.shr rd rm) s = .next t ∧ (t.reg rd).toNat = (s.reg rm).toNat / 2 ∧ t.flags.sign = false ∧
      LogicFlags (t.reg rd) t.flags ∧ AluFrame rd s t) ∧
    (∃ t, exec (.shl rd rm) s = .next t ∧ (t.reg rd).toNat = (s.reg rm).toNat * 2 % 65536 ∧
      LogicFlags (t.reg rd) t.flags ∧ AluFrame rd s t))

/-- R108, R110 with R97: the words of SHRI and SHLI, their results and flags, for every encodable count.
Decision D13, as for SHR and SHL. -/
def Obligations.ShiftByCountRules : Prop :=
  (∀ w : Word,
    ∃ (rd rm : Reg) (n : Nat), rd.val = w.toNat / 256 % 8 ∧ rm.val = w.toNat / 32 % 8 ∧ n = w.toNat % 8 ∧
      (w &&& 0xF800#16 = 0xB800#16 → decode w = .ok (.shri rd rm n)) ∧
      (w &&& 0xF800#16 = 0xC800#16 → decode w = .ok (.shli rd rm n))) ∧
  (∀ (rd rm : Reg) (n : Nat) (s : State), n ≤ 7 →
    (∃ t, exec (.shri rd rm n) s = .next t ∧ (t.reg rd).toNat = (s.reg rm).toNat / 2 ^ n ∧
      (1 ≤ n → t.flags.sign = false) ∧ LogicFlags (t.reg rd) t.flags ∧ AluFrame rd s t) ∧
    (∃ t, exec (.shli rd rm n) s = .next t ∧ (t.reg rd).toNat = (s.reg rm).toNat * 2 ^ n % 65536 ∧
      LogicFlags (t.reg rd) t.flags ∧ AluFrame rd s t))

/-- R111, R112 with R97: the words of ROR and ROL, their results (the evicted bit wraps around) and flags;
S is the old bit 0, and the old bit 14. -/
def Obligations.RotateRules : Prop :=
  (∀ w : Word,
    ∃ rd rm : Reg, rd.val = w.toNat / 256 % 8 ∧ rm.val = w.toNat / 32 % 8 ∧
      (w &&& 0xF800#16 = 0xD000#16 → decode w = .ok (.ror rd rm)) ∧
      (w &&& 0xF800#16 = 0xE000#16 → decode w = .ok (.rol rd rm))) ∧
  (∀ (rd rm : Reg) (s : State),
    (∃ t, exec (.ror rd rm) s = .next t ∧
      (t.reg rd).toNat = (s.reg rm).toNat / 2 + (s.reg rm).toNat % 2 * 32768 ∧
      t.flags.sign = (s.reg rm).getLsbD 0 ∧ LogicFlags (t.reg rd) t.flags ∧ AluFrame rd s t) ∧
    (∃ t, exec (.rol rd rm) s = .next t ∧
      (t.reg rd).toNat = (s.reg rm).toNat * 2 % 65536 + (s.reg rm).toNat / 32768 ∧
      t.flags.sign = (s.reg rm).getLsbD 14 ∧ LogicFlags (t.reg rd) t.flags ∧ AluFrame rd s t))

/-! ## Halt and the sequencer -/

/-- R113: only the word 0xFFFF is HALT and every other word with op = 0xF is illegal; HALT sets RUN to
HALTED, emits HALT_SENTINEL(PC), makes the final-state report (R141, decision D14), and changes nothing else.
That reports are kept in a list is the model's choice (log entry 6). -/
def Obligations.HaltRule : Prop :=
  (∀ w : Word, decode w = .ok .halt ↔ w = 0xFFFF#16) ∧
  (∀ w : Word, w.toNat / 4096 = 0xF → w ≠ 0xFFFF#16 → ∃ e, decode w = .error e) ∧
  (∀ s : State, ∃ t, exec .halt s = .next t ∧ t.run = .halted ∧
    t.events = s.events ++ [⟨.haltSentinel, s.pc⟩] ∧ t.reports = s.reports ++ [t.report] ∧
    t.pc = s.pc ∧ t.ir = s.ir ∧ t.accepted = s.accepted ∧ t.inputs = s.inputs ∧ t.flags = s.flags ∧
    SameRegs s t ∧ SameMemory s t ∧ SameStack s t)

/-- R115, R119, R120: when the core runs, the host does not present `rst`, and the word at PC decodes to an
instruction other than HALT, the step is that instruction's meaning on the state whose IR holds the word,
followed by PC + 2; what the host presented at this edge is ignored (R146, R150, decision D1) and gone (the
model's choice, log entry 2). The sentinel is HALT's own meaning, with
neither the IR write nor the advance (R117). -/
def Obligations.StepRunsDecodedInstruction : Prop :=
  ∀ (s : State) (i : Instr), s.run = .running → s.inputs.head? ≠ some .rst → s.pc.toNat < 2048 →
    decode (fetchWord s) = .ok i →
    (i ≠ .halt →
      (∀ t, exec i { s with ir := fetchWord s, inputs := s.inputs.tail } = .next t →
        step s = .next { t with pc := t.pc + 2#16 }) ∧
      (∀ f, exec i { s with ir := fetchWord s, inputs := s.inputs.tail } = .fault f → step s = .fault f) ∧
      (∀ r, exec i { s with ir := fetchWord s, inputs := s.inputs.tail } = .refused r → step s = .refused r)) ∧
    (i = .halt → step s = exec .halt { s with inputs := s.inputs.tail })

/-- R116 (decision D21): at PC ≥ 0x0800 a running core enters HALTED with HALT_PC_RANGE(PC) and the final
report (kept in a list, log entry 6), and all other state is unchanged. A transaction presented at that edge is
ignored (R146, R150, decision D1) and gone after it (the model's choice, log entry 2). -/
def Obligations.PcRangeStop : Prop :=
  ∀ s : State, s.run = .running → s.inputs.head? ≠ some .rst → 2048 ≤ s.pc.toNat →
    ∃ t, step s = .next t ∧ t.run = .halted ∧ t.events = s.events ++ [⟨.haltPcRange, s.pc⟩] ∧
      t.reports = s.reports ++ [t.report] ∧ t.pc = s.pc ∧ t.ir = s.ir ∧ t.flags = s.flags ∧
      t.accepted = s.accepted ∧ t.inputs = s.inputs.tail ∧ SameRegs s t ∧ SameMemory s t ∧ SameStack s t

/-- R117: when the fetched word is exactly 0xFFFF the step is the halt step; it neither writes IR nor
advances PC. That a running core ignores a transaction presented at that edge is R146 and R150 (decision D1),
that it is gone after its edge the model's choice (log entry 2). -/
def Obligations.SentinelStop : Prop :=
  ∀ s : State, s.run = .running → s.inputs.head? ≠ some .rst → s.pc.toNat < 2048 → fetchWord s = 0xFFFF#16 →
    ∃ t, step s = .next t ∧ exec .halt { s with inputs := s.inputs.tail } = .next t ∧ t.run = .halted ∧ t.ir = s.ir ∧ t.pc = s.pc

/-- R121 (decision D16): an illegal word stops the core in the step that fetched it; IR holds the word, PC
still addresses it, and nothing else changes but RUN, the event and the final report (kept in a list, log
entry 6). A transaction presented
at that edge is ignored (R146, R150, decision D1) and gone after it (the model's choice, log entry 2). -/
def Obligations.FatalStop : Prop :=
  ∀ (s : State) (e : Illegal), s.run = .running → s.inputs.head? ≠ some .rst → s.pc.toNat < 2048 →
    decode (fetchWord s) = .error e →
    ∃ t, step s = .next t ∧ t.run = .faulted ∧ t.ir = fetchWord s ∧ t.pc = s.pc ∧
      t.events = s.events ++ [⟨.decodeFatal, fetchWord s⟩] ∧ t.reports = s.reports ++ [t.report] ∧
      t.flags = s.flags ∧ t.accepted = s.accepted ∧ t.inputs = s.inputs.tail ∧ SameRegs s t ∧ SameMemory s t ∧ SameStack s t

/-- R120: after the instruction the sequencer adds 2 to the PC that the instruction left; so the next PC is
PC + 2 for every instruction and not-taken jump, and PC + disp, modulo 2^16, for a taken jump. The step may meet
a presented transaction, which is ignored (R146, R150, decision D1) and gone (the model's choice, log entry 2). -/
def Obligations.NextPc : Prop :=
  ∀ (s u : State) (i : Instr), s.run = .running → s.inputs.head? ≠ some .rst → s.pc.toNat < 2048 →
    decode (fetchWord s) = .ok i → i ≠ .halt →
    exec i { s with ir := fetchWord s, inputs := s.inputs.tail } = .next u →
    ∃ t, step s = .next t ∧ (t.pc.toNat = (u.pc.toNat + 2) % 65536) ∧
      match takenJump i s.flags with
      | none => u.pc = s.pc ∧ (t.pc.toNat : Int) = ((s.pc.toNat : Int) + 2) % 65536
      | some d => u.pc = branchWrite s.pc d ∧ (t.pc.toNat : Int) = ((s.pc.toNat : Int) + d) % 65536

/-- R44 (decision D5): at an odd PC the word fetched is the one at the byte address PC - 1, and the step
does not make PC even: a word that is not a taken jump leaves it odd, whatever transaction but `rst` is
presented at the edge (ignored: R146, R150, decision D1). -/
def Obligations.OddFetch : Prop :=
  ∀ s : State, s.pc.toNat % 2 = 1 →
    fetchWord s = fetchWord { s with pc := s.pc - 1#16 } ∧
    (∀ (t : State) (i : Instr), s.run = .running → s.inputs.head? ≠ some .rst → s.pc.toNat < 2048 →
      decode (fetchWord s) = .ok i → takenJump i s.flags = none → step s = .next t → t.pc.toNat % 2 = 1)

/-- R115 to R121: a step takes a running core out of RUNNING exactly when PC is out of range, the word is
the sentinel, or the word is illegal; only the last makes it FAULTED. The run states are decision D19, the order
of the tests D21, the fatal stop D16, the illegal words D9, and that no transaction matters D1; `rst` answers no
next state (log entry 3). -/
def Obligations.LeavesRunning : Prop :=
  ∀ s t : State, s.run = .running → step s = .next t →
    (t.run = .halted ↔ 2048 ≤ s.pc.toNat ∨ fetchWord s = 0xFFFF#16) ∧
    (t.run = .faulted ↔ s.pc.toNat < 2048 ∧ ∃ e, decode (fetchWord s) = .error e) ∧
    (t.run = .running ↔ s.pc.toNat < 2048 ∧ fetchWord s ≠ 0xFFFF#16 ∧ ∃ i, decode (fetchWord s) = .ok i)

/-! ## Frames over all instructions -/

/-- R16: an instruction writes no general register but its destination. -/
def Obligations.RegisterFrame : Prop :=
  ∀ (i : Instr) (s t : State), exec i s = .next t → ∀ r : Reg, destOf i ≠ some r → t.reg r = s.reg r

/-- R24 (decision D6): outside ADD, SUB, MUL, AND, OR, NOT, XOR, the shifts, the rotates and CMP no
instruction writes a flag, and after any of those Z and S are not both set. -/
def Obligations.FlagFrame : Prop :=
  ∀ (i : Instr) (s t : State), exec i s = .next t →
    (writesFlags i = false → t.flags = s.flags) ∧
    (writesFlags i = true → ¬(t.flags.zero = true ∧ t.flags.sign = true))

/-- R38, R46: an instruction changes no byte of memory but the two of the word it stores to, and none where
it has no store target or the target's address fails the check of R42. A word's cells and the canonical form are
the model's choice (log entry 1). -/
def Obligations.MemoryFrame : Prop :=
  ∀ (i : Instr) (s t : State), s.mem.wf = true → exec i s = .next t →
    (storeTarget i s = none → SameMemory s t) ∧
    (∀ a : Word, storeTarget i s = some a →
      (∀ x : Nat, x ≠ a.toNat → x ≠ a.toNat + 1 → t.mem.readByte x = s.mem.readByte x) ∧
      ((a.toNat % 2 = 1 ∨ 0x0800 ≤ a.toNat) → SameMemory s t))

/-- R22, R39: only PUSH and POP change SP or the stack. -/
def Obligations.StackFrame : Prop :=
  ∀ (i : Instr) (s t : State), exec i s = .next t → (∀ r, i ≠ .push r) → (∀ r, i ≠ .pop r) → SameStack s t

/-! ## Instructions together -/

/-- R82 to R84 with R93: after any instruction that writes the flags exactly one of JEQ, JLT and JGT is
taken. -/
def Obligations.OneConditionalJump : Prop :=
  ∀ (i : Instr) (s t : State) (d : Int), writesFlags i = true → exec i s = .next t →
    (exec (.jeq d) t = .next { t with pc := branchWrite t.pc d } ∧ exec (.jlt d) t = .next t ∧
      exec (.jgt d) t = .next t) ∨
    (exec (.jeq d) t = .next t ∧ exec (.jlt d) t = .next { t with pc := branchWrite t.pc d } ∧
      exec (.jgt d) t = .next t) ∨
    (exec (.jeq d) t = .next t ∧ exec (.jlt d) t = .next t ∧
      exec (.jgt d) t = .next { t with pc := branchWrite t.pc d })

/-- R83, R84: after CMP the conditional jumps read bit 15 of the 16-bit difference: neither signed nor
unsigned order. JEQ is taken exactly on equal registers. -/
def Obligations.JumpAfterCompare : Prop :=
  ∀ (rm rn : Reg) (s : State) (d : Int), ∃ t, exec (.cmp rm rn) s = .next t ∧
    ((takenJump (.jeq d) t.flags = some d) ↔ s.reg rm = s.reg rn) ∧
    ((takenJump (.jlt d) t.flags = some d) ↔
      0x8000 ≤ ((s.reg rm).toNat + 65536 - (s.reg rn).toNat) % 65536) ∧
    ((takenJump (.jgt d) t.flags = some d) ↔
      0 < ((s.reg rm).toNat + 65536 - (s.reg rn).toNat) % 65536 ∧
      ((s.reg rm).toNat + 65536 - (s.reg rn).toNat) % 65536 < 0x8000) ∧
    (∀ i, i = .jeq d ∨ i = .jlt d ∨ i = .jgt d →
      exec i t = .next (match takenJump i t.flags with
        | some e => { t with pc := branchWrite t.pc e }
        | none => t))

/-- R51 (the spec derives it; the cell index is decision D14): a push followed by a pop returns the value and
restores SP at every depth 0..255; at depth 256 a push changes neither SP nor the stack and emits STACK_OVF;
at depth 0 a pop emits STACK_UNF, returns 0 and leaves SP; a legal SP stays legal in every step, one that the
host's action takes up included (R144, log entry 2). -/
def Obligations.StackLaws : Prop :=
  (∀ (v : Word) (s : State), SpLegal s → s.sp.toNat ≠ 0x8000 →
    ∃ t u, push v s = .next t ∧ pop t = .next (v, u) ∧ u.sp = s.sp) ∧
  (∀ (v : Word) (s : State), s.sp.toNat = 0x8000 →
    ∃ t, push v s = .next t ∧ SameStack s t ∧ t.events = s.events ++ [⟨.stackOvf, s.sp⟩]) ∧
  (∀ s : State, s.sp.toNat = 0x8200 →
    ∃ t, pop s = .next (0x0000#16, t) ∧ SameStack s t ∧ t.events = s.events ++ [⟨.stackUnf, s.sp⟩]) ∧
  (∀ s t : State, SpLegal s → step s = .next t → SpLegal t)

/-- R53 (the spec derives it): a LOAD returns what the last STORE to its word stored, through any register
pair and whatever the value. Memory is in its canonical form, the model's choice (log entry 1). -/
def Obligations.LoadAfterStore : Prop :=
  ∀ (rm rn rd ra : Reg) (s : State), s.mem.wf = true → (s.reg rm).toNat % 2 = 0 → (s.reg rm).toNat < 0x0800 →
    s.reg ra = s.reg rm →
    ∃ t u, exec (.store rm rn) s = .next t ∧ exec (.load rd ra) t = .next u ∧ u.reg rd = s.reg rn

/-- R56 (the spec derives it): a step that runs STORE at a valid address makes the next fetch of that word
read the stored value, the very next step's fetch included, at an odd PC too (R44, decision D5). Memory is in
its canonical form, the model's choice (log entry 1); a transaction presented at the edge is ignored (R146,
R150, decision D1). -/
def Obligations.StoreThenFetch : Prop :=
  ∀ (s : State) (rm rn : Reg), s.mem.wf = true → s.run = .running → s.inputs.head? ≠ some .rst →
    s.pc.toNat < 2048 → decode (fetchWord s) = .ok (.store rm rn) → (s.reg rm).toNat % 2 = 0 →
    (s.reg rm).toNat < 0x0800 →
    ∃ t, step s = .next t ∧
      (∀ p : Word, p.toNat / 2 = (s.reg rm).toNat / 2 → fetchWord { t with pc := p } = s.reg rn) ∧
      ((s.pc + 2#16).toNat / 2 = (s.reg rm).toNat / 2 → fetchWord t = s.reg rn)

/-! ## Events and reports -/

/-- R34, R131 (the events are decision D15): a step that is not a reset emits at most one event, and none is
ever removed. One host action an edge is log entry 2. -/
def Obligations.OneEventPerStep : Prop :=
  ∀ s t : State, s.inputs.head? ≠ some .rst → step s = .next t →
    t.events = s.events ∨ ∃ e, t.events = s.events ++ [e]

/-- R141: a report lists the registers, PC, IR, SP, the flags, every touched memory cell by its byte address
and every touched stack cell by its byte address, and no other. The cell of a stack index is decision D14, and
the record that holds a report the model's choice (log entry 6). -/
def Obligations.ReportContents : Prop :=
  ∀ s : State,
    s.report.regs = s.regs ∧ s.report.pc = s.pc ∧ s.report.ir = s.ir ∧ s.report.sp = s.sp ∧
    s.report.flags = s.flags ∧
    (∀ a v : Word, (a, v) ∈ s.report.memCells ↔
      a.toNat < 2048 ∧ a.toNat % 2 = 0 ∧ s.memTouched.getLsbD (a.toNat / 2) = true ∧ v = s.mem.readWord a) ∧
    (∀ a v : Word, (a, v) ∈ s.report.stackCells ↔
      ∃ j : Fin 256, s.stackTouched.getLsbD j.val = true ∧ a.toNat = 0x8200 - 2 * (j.val + 1) ∧ v = s.stack.get j)

/-- R142 (decision D25): the report of a NOP's step has PC at the NOP's own address, IR = 0x0000, and
everything else as the previous step left it, whatever transaction the host presents at that edge (ignored:
R146, R150, decision D1). That reports are kept in a list is the model's choice (log entry 6). -/
def Obligations.NopReport : Prop :=
  ∀ s : State, s.run = .running → s.inputs.head? ≠ some .rst → s.pc.toNat < 2048 → fetchWord s = 0x0000#16 →
    ∃ t, step s = .next t ∧ t.reports = s.reports ++ [{ s.report with ir := 0x0000#16 }] ∧ t.ir = 0x0000#16

/-- R32, R34, R126: the event output of a step shows the event the step emitted, and code 0 with data 0 when
it emitted none; the codes of the run state and of the events. The codes and the ports are the spec's own
decisions D1 and D15. -/
def Obligations.OutputPorts : Prop :=
  (∀ s t : State,
    (∀ e : Event, t.events = s.events ++ [e] → eventOutput s t = (1#1, eventCodeBits e.code, e.data)) ∧
    (t.events = s.events → eventOutput s t = (0#1, 0#4, 0#16))) ∧
  [RunState.idle, .running, .halted, .faulted, .loadFailed].map runStateBits = [0#3, 1#3, 2#3, 3#3, 4#3] ∧
  [EventCode.report, .memWarn, .stackOvf, .stackUnf, .decodeFatal, .haltSentinel, .haltPcRange, .loadBadAddr,
    .loadEmpty].map eventCodeBits = [1#4, 2#4, 3#4, 4#4, 5#4, 6#4, 7#4, 8#4, 9#4]

/-! ## Reset, loading and the host -/

/-- R144 (decision D22 for IR, the touched bits and the fill): every piece of state at its reset value, and
`rst` in any run state but RUNNING brings the core there. No record is accepted yet (R147, R150). That
the list of reports is cleared with the event list, that nothing is presented after State.reset, and that `rst`
leaves the host's later actions standing, are the model's choices (log entries 6 and 2). -/
def Obligations.ResetState : Prop :=
  (∀ r : Reg, State.reset.reg r = 0x0000#16) ∧ State.reset.flags = ⟨false, false, false, false⟩ ∧
  State.reset.sp = 0x8200#16 ∧ State.reset.pc = 0x0000#16 ∧ State.reset.ir = 0x0000#16 ∧
  (∀ j : Fin 256, State.reset.stack.get j = 0x0000#16) ∧ (∀ k : Nat, State.reset.memTouched.getLsbD k = false) ∧
  (∀ k : Nat, State.reset.stackTouched.getLsbD k = false) ∧ State.reset.run = .idle ∧
  (∀ a : Word, State.reset.mem.readWord a = 0xFFFF#16) ∧ State.reset.events = [] ∧ State.reset.accepted = 0 ∧
  State.reset.reports = [] ∧ State.reset.inputs = [] ∧
  (∀ (s : State) (l : List HostAction), s.run ≠ .running → s.inputs = .rst :: l →
    step s = .next { State.reset with inputs := l })

/-- R147, R148 (decision D20): while RUN = IDLE a record with a valid address is written, touched and
counted; one with an invalid address emits LOAD_BAD_ADDR(address) and fails the load, the earlier records
staying. The transaction itself is decision D1, the list it is taken from the model's choice (log entry 2), as
is memory's canonical form (log entry 1). -/
def Obligations.LoadRecordRule : Prop :=
  ∀ (s : State) (a w : Word) (l : List HostAction), s.run = .idle → s.mem.wf = true →
    s.inputs = .loadRecord a w :: l →
    (a.toNat % 2 = 0 → a.toNat < 0x0800 →
      ∃ t, step s = .next t ∧ t.mem.readWord a = w ∧
        (∀ b : Word, b.toNat / 2 ≠ a.toNat / 2 → t.mem.readWord b = s.mem.readWord b) ∧
        (∀ k : Nat, t.memTouched.getLsbD k = true ↔ s.memTouched.getLsbD k = true ∨ k = a.toNat / 2) ∧
        t.accepted = s.accepted + 1 ∧ t.run = .idle ∧ SameOutput s t ∧ t.inputs = l ∧
        t.pc = s.pc ∧ t.ir = s.ir ∧ t.flags = s.flags ∧ SameRegs s t ∧ SameStack s t) ∧
    ((a.toNat % 2 = 1 ∨ 0x0800 ≤ a.toNat) →
      step s = .next { s with run := .loadFailed, events := s.events ++ [⟨.loadBadAddr, a⟩], inputs := l })

/-- R150 (decision D1): `Start` while RUN = IDLE enters RUNNING if a record was accepted, else emits
LOAD_EMPTY and fails the load; nothing else changes. The list the transaction is taken from is the model's
choice (log entry 2). -/
def Obligations.StartRule : Prop :=
  ∀ (s : State) (l : List HostAction), s.run = .idle → s.inputs = .start :: l →
    (s.accepted ≠ 0 → step s = .next { s with run := .running, inputs := l }) ∧
    (s.accepted = 0 →
      step s = .next { s with run := .loadFailed, events := s.events ++ [⟨.loadEmpty, 0x0000#16⟩], inputs := l })

/-- R114, R143 (decision D19): outside RUNNING a clock edge without a transaction, at the end of the list of
inputs or before its next entry, changes nothing, and in a terminal run state nothing but `rst` changes
anything. That a transaction presented there is ignored is R146 and R150 (decision D1); that what was presented
is gone after its edge is the model's choice (log entry 2). -/
def Obligations.StepsOnlyWhileRunning : Prop :=
  (∀ s : State, s.run ≠ .running → s.inputs = [] → step s = .next s) ∧
  (∀ (s : State) (l : List HostAction), s.run ≠ .running → s.inputs = .noAction :: l →
    step s = .next { s with inputs := l }) ∧
  (∀ s : State, s.run = .halted ∨ s.run = .faulted ∨ s.run = .loadFailed → s.inputs.head? ≠ some .rst →
    step s = .next { s with inputs := s.inputs.tail })

/-- R146, R150, R153 (decision D1): while RUN = RUNNING every `LoadRecord` and `Start` is ignored. That it is
gone after its edge, as an edge without a transaction is, is the model's choice (log entry 2). -/
def Obligations.RunningIgnoresHost : Prop :=
  ∀ (s : State) (a : HostAction) (l : List HostAction), s.run = .running → a ≠ .rst →
    step { s with inputs := a :: l } = step { s with inputs := .noAction :: l }

/-- R152 (the spec derives it): reset, any non-empty list of records with valid addresses, then `Start`
give the launch premises: RUNNING at PC 0 with every register, flag and stack word 0, SP = 0x8200, the event
list empty, and memory the image (the last record of an address wins) over a field of 0xFFFF. It rests on
decisions D1, D20 and D22; the host's list, one transaction an edge, is the model's choice (log entry 2). -/
def Obligations.LaunchPremises : Prop :=
  ∀ records : List (Word × Word), records ≠ [] →
    (∀ p ∈ records, p.1.toNat % 2 = 0 ∧ p.1.toNat < 0x0800) →
    ∃ t : State, core.run (records.length + 1)
        { State.reset with inputs := records.map (fun p => HostAction.loadRecord p.1 p.2) ++ [.start] } = .next t ∧
      t.run = .running ∧ t.pc = 0x0000#16 ∧ t.ir = 0x0000#16 ∧ t.sp = 0x8200#16 ∧
      t.flags = ⟨false, false, false, false⟩ ∧ (∀ r : Reg, t.reg r = 0x0000#16) ∧
      (∀ j : Fin 256, t.stack.get j = 0x0000#16) ∧ t.events = [] ∧ t.inputs = [] ∧
      (∀ a : Word, a.toNat % 2 = 0 → a.toNat < 0x0800 →
        t.mem.readWord a = ((records.reverse.find? (fun p => p.1 == a)).map Prod.snd).getD 0xFFFF#16)

/-- R127, R148 (decision D20): from reset, a load that meets a record with an invalid address after valid
ones ends LOAD_FAILED with LOAD_BAD_ADDR of that address as its only event, whatever records follow and
though `Start` follows them (decision D1). The host's list is the model's choice (log entry 2). -/
def Obligations.BadRecordFailsLoad : Prop :=
  ∀ (before after : List (Word × Word)) (a w : Word),
    (∀ p ∈ before, p.1.toNat % 2 = 0 ∧ p.1.toNat < 0x0800) → (a.toNat % 2 = 1 ∨ 0x0800 ≤ a.toNat) →
    ∃ t : State, core.run (before.length + 1 + after.length + 1)
        { State.reset with
          inputs := (before ++ [(a, w)] ++ after).map (fun p => HostAction.loadRecord p.1 p.2) ++ [.start] } = .next t ∧
      t.run = .loadFailed ∧ t.events = [⟨.loadBadAddr, a⟩] ∧ t.pc = 0x0000#16 ∧ (∀ r : Reg, t.reg r = 0x0000#16)

/-! ## Invariants of the machine -/

/-- The state after reset meets the invariant (R22, R28, R29, R93, R144 with decision D22). Its clause on memory's
canonical form is the model's choice (log entry 1). -/
def Obligations.ResetInv : Prop := Inv State.reset

/-- Every step keeps the invariant, from every state that meets it: memory's canonical form, a legal SP
(R22), IR never the sentinel (R29), Z and S never together (R93), cells that are not touched at their reset
value (R28, decision D22), and every live stack cell touched (R47, decision D14). The canonical form and the
bytes of a word are the model's choice (log entry 1), the host's list log entry 2. -/
def Obligations.InvStep : Prop :=
  ∀ s t : State, Inv s → step s = .next t → Inv t

/-- From every state with a legal SP, one step answers a next state, unless the host presents `rst` while the
core runs, which the spec leaves outside (R153): that step neither faults nor is refused (R132, R136). The
fault and the refusal it excludes are the model's own (log entries 4 and 3). -/
def Obligations.StepProgress : Prop :=
  ∀ s : State, SpLegal s → HostBehaves s → ∃ t, step s = .next t

/-- R6, R21, R29, R140: the touched bits, the events, the reports, IR, C and V never affect what a program
does. Two states that differ in nothing else step to states that differ in nothing else, or stop alike. The list
of reports and the host's list, which must agree, are the model's own (log entries 6 and 2). -/
def Obligations.ReportingStateUnobservable : Prop :=
  ∀ s s' : State, ProgramEq s s' →
    (∀ t, step s = .next t → ∃ t', step s' = .next t' ∧ ProgramEq t t') ∧
    (∀ f, step s = .fault f → step s' = .fault f) ∧ (∀ r, step s = .refused r → step s' = .refused r)

/-- Two memories in canonical form (the model's own form, log entry 1) that read alike at every byte are equal
data. -/
def Obligations.MemoryCanonical : Prop :=
  ∀ m m' : Memory, m.wf = true → m'.wf = true → (∀ a : Nat, m.readByte a = m'.readByte a) → m = m'
end

