-- ==== Sys2Proof/Laws/Decode.lean ====
section
/-! SUPPORT. Decoding: the fields as numbers, and for each form of R60 what the words of its mask and
match decode to. -/

namespace Sys2Proof

theorem rdField_val (w : Word) : (rdField w).val = w.toNat / 256 % 8 := by
  simp [rdField, Nat.shiftRight_eq_div_pow]

theorem rmField_val (w : Word) : (rmField w).val = w.toNat / 32 % 8 := by
  simp [rmField, Nat.shiftRight_eq_div_pow]

theorem rnField_val (w : Word) : (rnField w).val = w.toNat / 4 % 8 := by
  simp [rnField, Nat.shiftRight_eq_div_pow]

theorem imm8Field_toNat (w : Word) : (imm8Field w).toNat = w.toNat % 256 := by
  simp [imm8Field, BitVec.extractLsb'_toNat]

theorem sh3Field_eq (w : Word) : sh3Field w = w.toNat % 8 := by
  simp [sh3Field, BitVec.extractLsb'_toNat]

/-- R63: the displacement as a signed number. -/
theorem dispField_eq (w : Word) :
    dispField w =
      if w.toNat / 4 % 512 < 256 then ((w.toNat / 4 % 512 : Nat) : Int) else ((w.toNat / 4 % 512 : Nat) : Int) - 512 := by
  have h : (w.extractLsb' 2 9).toNat = w.toNat / 4 % 512 := by
    simp [BitVec.extractLsb'_toNat, Nat.shiftRight_eq_div_pow]
  unfold dispField
  rw [BitVec.toInt_eq_toNat_cond, h]
  by_cases hlt : w.toNat / 4 % 512 < 256
  · have : 2 * (w.toNat / 4 % 512) < 2 ^ 9 := by omega
    rw [if_pos this, if_pos hlt]
  · have : ¬ 2 * (w.toNat / 4 % 512) < 2 ^ 9 := by omega
    rw [if_neg this, if_neg hlt]
    rfl

theorem dispField_range (w : Word) : -256 ≤ dispField w ∧ dispField w ≤ 255 := by
  rw [dispField_eq]
  split <;> omega

theorem sh3Field_range (w : Word) : sh3Field w ≤ 7 := by
  rw [sh3Field_eq]
  omega

/-- The top five bits, op and i, of a word under the mask 0xF800. -/
theorem topBits_of_mask {w k : Word} (h : w &&& 0xF800#16 = k) :
    opField w = k.extractLsb' 12 4 ∧ immFlag w = k.getLsbD 11 := by
  subst h
  constructor
  · rw [BitVec.extractLsb'_and]
    have : (0xF800#16).extractLsb' 12 4 = BitVec.allOnes 4 := by decide
    rw [this, BitVec.and_allOnes]
    rfl
  · simp [immFlag]

/-- Op, i and the selector of a word under the mask 0xF803. -/
theorem topSelBits_of_mask {w k : Word} (h : w &&& 0xF803#16 = k) :
    opField w = k.extractLsb' 12 4 ∧ immFlag w = k.getLsbD 11 ∧ selField w = k.extractLsb' 0 2 := by
  subst h
  refine ⟨?_, ?_, ?_⟩
  · rw [BitVec.extractLsb'_and]
    have : (0xF803#16).extractLsb' 12 4 = BitVec.allOnes 4 := by decide
    rw [this, BitVec.and_allOnes]
    rfl
  · simp [immFlag]
  · rw [BitVec.extractLsb'_and]
    have : (0xF803#16).extractLsb' 0 2 = BitVec.allOnes 2 := by decide
    rw [this, BitVec.and_allOnes]
    rfl

theorem decode_push {w : Word} (h : w &&& 0xF803#16 = 0x0001#16) : decode w = .ok (.push (rnField w)) := by
  have := topSelBits_of_mask h
  simp [decode, decodeStackGroup, this]

theorem decode_pop {w : Word} (h : w &&& 0xF803#16 = 0x0002#16) : decode w = .ok (.pop (rdField w)) := by
  have := topSelBits_of_mask h
  simp [decode, decodeStackGroup, this]

theorem decode_cmp {w : Word} (h : w &&& 0xF803#16 = 0x0003#16) :
    decode w = .ok (.cmp (rmField w) (rnField w)) := by
  have := topSelBits_of_mask h
  simp [decode, decodeStackGroup, this]

theorem decode_jmp {w : Word} (h : w &&& 0xF803#16 = 0x0800#16) : decode w = .ok (.jmp (dispField w)) := by
  have := topSelBits_of_mask h
  simp [decode, decodeControl, this]

theorem decode_jeq {w : Word} (h : w &&& 0xF803#16 = 0x0801#16) : decode w = .ok (.jeq (dispField w)) := by
  have := topSelBits_of_mask h
  simp [decode, decodeControl, this]

theorem decode_jlt {w : Word} (h : w &&& 0xF803#16 = 0x0802#16) : decode w = .ok (.jlt (dispField w)) := by
  have := topSelBits_of_mask h
  simp [decode, decodeControl, this]

theorem decode_jgt {w : Word} (h : w &&& 0xF803#16 = 0x0803#16) : decode w = .ok (.jgt (dispField w)) := by
  have := topSelBits_of_mask h
  simp [decode, decodeControl, this]

theorem decode_mov {w : Word} (h : w &&& 0xF800#16 = 0x1000#16) :
    decode w = .ok (.mov (rdField w) (rmField w)) := by
  have := topBits_of_mask h
  simp [decode, this]

theorem decode_movi {w : Word} (h : w &&& 0xF800#16 = 0x1800#16) :
    decode w = .ok (.movi (rdField w) (imm8Field w)) := by
  have := topBits_of_mask h
  simp [decode, this]

theorem decode_store {w : Word} (h : w &&& 0xF800#16 = 0x2000#16) :
    decode w = .ok (.store (rmField w) (rnField w)) := by
  have := topBits_of_mask h
  simp [decode, this]

theorem decode_storei {w : Word} (h : w &&& 0xF800#16 = 0x2800#16) :
    decode w = .ok (.storei (rdField w) (imm8Field w)) := by
  have := topBits_of_mask h
  simp [decode, this]

theorem decode_load {w : Word} (h : w &&& 0xF800#16 = 0x3000#16) :
    decode w = .ok (.load (rdField w) (rmField w)) := by
  have := topBits_of_mask h
  simp [decode, this]

theorem decode_add {w : Word} (h : w &&& 0xF800#16 = 0x4000#16) :
    decode w = .ok (.add (rdField w) (rmField w) (rnField w)) := by
  have := topBits_of_mask h
  simp [decode, registerOnly, this]

theorem decode_sub {w : Word} (h : w &&& 0xF800#16 = 0x5000#16) :
    decode w = .ok (.sub (rdField w) (rmField w) (rnField w)) := by
  have := topBits_of_mask h
  simp [decode, registerOnly, this]

theorem decode_mul {w : Word} (h : w &&& 0xF800#16 = 0x6000#16) :
    decode w = .ok (.mul (rdField w) (rmField w) (rnField w)) := by
  have := topBits_of_mask h
  simp [decode, registerOnly, this]

theorem decode_and {w : Word} (h : w &&& 0xF800#16 = 0x7000#16) :
    decode w = .ok (.and (rdField w) (rmField w) (rnField w)) := by
  have := topBits_of_mask h
  simp [decode, registerOnly, this]

theorem decode_or {w : Word} (h : w &&& 0xF800#16 = 0x8000#16) :
    decode w = .ok (.or (rdField w) (rmField w) (rnField w)) := by
  have := topBits_of_mask h
  simp [decode, registerOnly, this]

theorem decode_not {w : Word} (h : w &&& 0xF800#16 = 0x9000#16) :
    decode w = .ok (.not (rdField w) (rmField w)) := by
  have := topBits_of_mask h
  simp [decode, registerOnly, this]

theorem decode_xor {w : Word} (h : w &&& 0xF800#16 = 0xA000#16) :
    decode w = .ok (.xor (rdField w) (rmField w) (rnField w)) := by
  have := topBits_of_mask h
  simp [decode, registerOnly, this]

theorem decode_shr {w : Word} (h : w &&& 0xF800#16 = 0xB000#16) :
    decode w = .ok (.shr (rdField w) (rmField w)) := by
  have := topBits_of_mask h
  simp [decode, this]

theorem decode_shri {w : Word} (h : w &&& 0xF800#16 = 0xB800#16) :
    decode w = .ok (.shri (rdField w) (rmField w) (sh3Field w)) := by
  have := topBits_of_mask h
  simp [decode, this]

theorem decode_shl {w : Word} (h : w &&& 0xF800#16 = 0xC000#16) :
    decode w = .ok (.shl (rdField w) (rmField w)) := by
  have := topBits_of_mask h
  simp [decode, this]

theorem decode_shli {w : Word} (h : w &&& 0xF800#16 = 0xC800#16) :
    decode w = .ok (.shli (rdField w) (rmField w) (sh3Field w)) := by
  have := topBits_of_mask h
  simp [decode, this]

theorem decode_ror {w : Word} (h : w &&& 0xF800#16 = 0xD000#16) :
    decode w = .ok (.ror (rdField w) (rmField w)) := by
  have := topBits_of_mask h
  simp [decode, registerOnly, this]

theorem decode_rol {w : Word} (h : w &&& 0xF800#16 = 0xE000#16) :
    decode w = .ok (.rol (rdField w) (rmField w)) := by
  have := topBits_of_mask h
  simp [decode, registerOnly, this]

end Sys2Proof
end

