-- ==== Sys2Proof/Laws/State.lean ====
section
/-! SUPPORT. One lemma per field per update of `State`, true by `rfl` and tagged `@[simp]`, so that no proof
unfolds a record update; and the register file's read after write. -/

namespace Sys2Proof.Machine

@[simp] theorem setReg_regs (s : State) (r : Reg) (v : Word) : (s.setReg r v).regs = s.regs.set r v := rfl
@[simp] theorem setReg_pc (s : State) (r : Reg) (v : Word) : (s.setReg r v).pc = s.pc := rfl
@[simp] theorem setReg_ir (s : State) (r : Reg) (v : Word) : (s.setReg r v).ir = s.ir := rfl
@[simp] theorem setReg_sp (s : State) (r : Reg) (v : Word) : (s.setReg r v).sp = s.sp := rfl
@[simp] theorem setReg_flags (s : State) (r : Reg) (v : Word) : (s.setReg r v).flags = s.flags := rfl
@[simp] theorem setReg_run (s : State) (r : Reg) (v : Word) : (s.setReg r v).run = s.run := rfl
@[simp] theorem setReg_mem (s : State) (r : Reg) (v : Word) : (s.setReg r v).mem = s.mem := rfl
@[simp] theorem setReg_stack (s : State) (r : Reg) (v : Word) : (s.setReg r v).stack = s.stack := rfl
@[simp] theorem setReg_memTouched (s : State) (r : Reg) (v : Word) : (s.setReg r v).memTouched = s.memTouched := rfl
@[simp] theorem setReg_stackTouched (s : State) (r : Reg) (v : Word) : (s.setReg r v).stackTouched = s.stackTouched := rfl
@[simp] theorem setReg_accepted (s : State) (r : Reg) (v : Word) : (s.setReg r v).accepted = s.accepted := rfl
@[simp] theorem setReg_events (s : State) (r : Reg) (v : Word) : (s.setReg r v).events = s.events := rfl
@[simp] theorem setReg_reports (s : State) (r : Reg) (v : Word) : (s.setReg r v).reports = s.reports := rfl
@[simp] theorem setReg_inputs (s : State) (r : Reg) (v : Word) : (s.setReg r v).inputs = s.inputs := rfl

@[simp] theorem setPc_regs (s : State) (v : Word) : (s.setPc v).regs = s.regs := rfl
@[simp] theorem setPc_pc (s : State) (v : Word) : (s.setPc v).pc = v := rfl
@[simp] theorem setPc_ir (s : State) (v : Word) : (s.setPc v).ir = s.ir := rfl
@[simp] theorem setPc_sp (s : State) (v : Word) : (s.setPc v).sp = s.sp := rfl
@[simp] theorem setPc_flags (s : State) (v : Word) : (s.setPc v).flags = s.flags := rfl
@[simp] theorem setPc_run (s : State) (v : Word) : (s.setPc v).run = s.run := rfl
@[simp] theorem setPc_mem (s : State) (v : Word) : (s.setPc v).mem = s.mem := rfl
@[simp] theorem setPc_stack (s : State) (v : Word) : (s.setPc v).stack = s.stack := rfl
@[simp] theorem setPc_memTouched (s : State) (v : Word) : (s.setPc v).memTouched = s.memTouched := rfl
@[simp] theorem setPc_stackTouched (s : State) (v : Word) : (s.setPc v).stackTouched = s.stackTouched := rfl
@[simp] theorem setPc_accepted (s : State) (v : Word) : (s.setPc v).accepted = s.accepted := rfl
@[simp] theorem setPc_events (s : State) (v : Word) : (s.setPc v).events = s.events := rfl
@[simp] theorem setPc_reports (s : State) (v : Word) : (s.setPc v).reports = s.reports := rfl
@[simp] theorem setPc_inputs (s : State) (v : Word) : (s.setPc v).inputs = s.inputs := rfl
@[simp] theorem setPc_reg (s : State) (v : Word) (q : Reg) : (s.setPc v).reg q = s.reg q := rfl

@[simp] theorem setIr_regs (s : State) (v : Word) : (s.setIr v).regs = s.regs := rfl
@[simp] theorem setIr_pc (s : State) (v : Word) : (s.setIr v).pc = s.pc := rfl
@[simp] theorem setIr_ir (s : State) (v : Word) : (s.setIr v).ir = v := rfl
@[simp] theorem setIr_sp (s : State) (v : Word) : (s.setIr v).sp = s.sp := rfl
@[simp] theorem setIr_flags (s : State) (v : Word) : (s.setIr v).flags = s.flags := rfl
@[simp] theorem setIr_run (s : State) (v : Word) : (s.setIr v).run = s.run := rfl
@[simp] theorem setIr_mem (s : State) (v : Word) : (s.setIr v).mem = s.mem := rfl
@[simp] theorem setIr_stack (s : State) (v : Word) : (s.setIr v).stack = s.stack := rfl
@[simp] theorem setIr_memTouched (s : State) (v : Word) : (s.setIr v).memTouched = s.memTouched := rfl
@[simp] theorem setIr_stackTouched (s : State) (v : Word) : (s.setIr v).stackTouched = s.stackTouched := rfl
@[simp] theorem setIr_accepted (s : State) (v : Word) : (s.setIr v).accepted = s.accepted := rfl
@[simp] theorem setIr_events (s : State) (v : Word) : (s.setIr v).events = s.events := rfl
@[simp] theorem setIr_reports (s : State) (v : Word) : (s.setIr v).reports = s.reports := rfl
@[simp] theorem setIr_inputs (s : State) (v : Word) : (s.setIr v).inputs = s.inputs := rfl
@[simp] theorem setIr_reg (s : State) (v : Word) (q : Reg) : (s.setIr v).reg q = s.reg q := rfl

@[simp] theorem setFlags_regs (s : State) (f : Flags) : (s.setFlags f).regs = s.regs := rfl
@[simp] theorem setFlags_pc (s : State) (f : Flags) : (s.setFlags f).pc = s.pc := rfl
@[simp] theorem setFlags_ir (s : State) (f : Flags) : (s.setFlags f).ir = s.ir := rfl
@[simp] theorem setFlags_sp (s : State) (f : Flags) : (s.setFlags f).sp = s.sp := rfl
@[simp] theorem setFlags_flags (s : State) (f : Flags) : (s.setFlags f).flags = f := rfl
@[simp] theorem setFlags_run (s : State) (f : Flags) : (s.setFlags f).run = s.run := rfl
@[simp] theorem setFlags_mem (s : State) (f : Flags) : (s.setFlags f).mem = s.mem := rfl
@[simp] theorem setFlags_stack (s : State) (f : Flags) : (s.setFlags f).stack = s.stack := rfl
@[simp] theorem setFlags_memTouched (s : State) (f : Flags) : (s.setFlags f).memTouched = s.memTouched := rfl
@[simp] theorem setFlags_stackTouched (s : State) (f : Flags) : (s.setFlags f).stackTouched = s.stackTouched := rfl
@[simp] theorem setFlags_accepted (s : State) (f : Flags) : (s.setFlags f).accepted = s.accepted := rfl
@[simp] theorem setFlags_events (s : State) (f : Flags) : (s.setFlags f).events = s.events := rfl
@[simp] theorem setFlags_reports (s : State) (f : Flags) : (s.setFlags f).reports = s.reports := rfl
@[simp] theorem setFlags_inputs (s : State) (f : Flags) : (s.setFlags f).inputs = s.inputs := rfl
@[simp] theorem setFlags_reg (s : State) (f : Flags) (q : Reg) : (s.setFlags f).reg q = s.reg q := rfl

@[simp] theorem setRun_regs (s : State) (r : RunState) : (s.setRun r).regs = s.regs := rfl
@[simp] theorem setRun_pc (s : State) (r : RunState) : (s.setRun r).pc = s.pc := rfl
@[simp] theorem setRun_ir (s : State) (r : RunState) : (s.setRun r).ir = s.ir := rfl
@[simp] theorem setRun_sp (s : State) (r : RunState) : (s.setRun r).sp = s.sp := rfl
@[simp] theorem setRun_flags (s : State) (r : RunState) : (s.setRun r).flags = s.flags := rfl
@[simp] theorem setRun_run (s : State) (r : RunState) : (s.setRun r).run = r := rfl
@[simp] theorem setRun_mem (s : State) (r : RunState) : (s.setRun r).mem = s.mem := rfl
@[simp] theorem setRun_stack (s : State) (r : RunState) : (s.setRun r).stack = s.stack := rfl
@[simp] theorem setRun_memTouched (s : State) (r : RunState) : (s.setRun r).memTouched = s.memTouched := rfl
@[simp] theorem setRun_stackTouched (s : State) (r : RunState) : (s.setRun r).stackTouched = s.stackTouched := rfl
@[simp] theorem setRun_accepted (s : State) (r : RunState) : (s.setRun r).accepted = s.accepted := rfl
@[simp] theorem setRun_events (s : State) (r : RunState) : (s.setRun r).events = s.events := rfl
@[simp] theorem setRun_reports (s : State) (r : RunState) : (s.setRun r).reports = s.reports := rfl
@[simp] theorem setRun_inputs (s : State) (r : RunState) : (s.setRun r).inputs = s.inputs := rfl
@[simp] theorem setRun_reg (s : State) (r : RunState) (q : Reg) : (s.setRun r).reg q = s.reg q := rfl

@[simp] theorem setSp_regs (s : State) (v : Word) : (s.setSp v).regs = s.regs := rfl
@[simp] theorem setSp_pc (s : State) (v : Word) : (s.setSp v).pc = s.pc := rfl
@[simp] theorem setSp_ir (s : State) (v : Word) : (s.setSp v).ir = s.ir := rfl
@[simp] theorem setSp_sp (s : State) (v : Word) : (s.setSp v).sp = v := rfl
@[simp] theorem setSp_flags (s : State) (v : Word) : (s.setSp v).flags = s.flags := rfl
@[simp] theorem setSp_run (s : State) (v : Word) : (s.setSp v).run = s.run := rfl
@[simp] theorem setSp_mem (s : State) (v : Word) : (s.setSp v).mem = s.mem := rfl
@[simp] theorem setSp_stack (s : State) (v : Word) : (s.setSp v).stack = s.stack := rfl
@[simp] theorem setSp_memTouched (s : State) (v : Word) : (s.setSp v).memTouched = s.memTouched := rfl
@[simp] theorem setSp_stackTouched (s : State) (v : Word) : (s.setSp v).stackTouched = s.stackTouched := rfl
@[simp] theorem setSp_accepted (s : State) (v : Word) : (s.setSp v).accepted = s.accepted := rfl
@[simp] theorem setSp_events (s : State) (v : Word) : (s.setSp v).events = s.events := rfl
@[simp] theorem setSp_reports (s : State) (v : Word) : (s.setSp v).reports = s.reports := rfl
@[simp] theorem setSp_inputs (s : State) (v : Word) : (s.setSp v).inputs = s.inputs := rfl
@[simp] theorem setSp_reg (s : State) (v : Word) (q : Reg) : (s.setSp v).reg q = s.reg q := rfl

@[simp] theorem setInputs_regs (s : State) (l : List HostAction) : (s.setInputs l).regs = s.regs := rfl
@[simp] theorem setInputs_pc (s : State) (l : List HostAction) : (s.setInputs l).pc = s.pc := rfl
@[simp] theorem setInputs_ir (s : State) (l : List HostAction) : (s.setInputs l).ir = s.ir := rfl
@[simp] theorem setInputs_sp (s : State) (l : List HostAction) : (s.setInputs l).sp = s.sp := rfl
@[simp] theorem setInputs_flags (s : State) (l : List HostAction) : (s.setInputs l).flags = s.flags := rfl
@[simp] theorem setInputs_run (s : State) (l : List HostAction) : (s.setInputs l).run = s.run := rfl
@[simp] theorem setInputs_mem (s : State) (l : List HostAction) : (s.setInputs l).mem = s.mem := rfl
@[simp] theorem setInputs_stack (s : State) (l : List HostAction) : (s.setInputs l).stack = s.stack := rfl
@[simp] theorem setInputs_memTouched (s : State) (l : List HostAction) : (s.setInputs l).memTouched = s.memTouched := rfl
@[simp] theorem setInputs_stackTouched (s : State) (l : List HostAction) : (s.setInputs l).stackTouched = s.stackTouched := rfl
@[simp] theorem setInputs_accepted (s : State) (l : List HostAction) : (s.setInputs l).accepted = s.accepted := rfl
@[simp] theorem setInputs_events (s : State) (l : List HostAction) : (s.setInputs l).events = s.events := rfl
@[simp] theorem setInputs_reports (s : State) (l : List HostAction) : (s.setInputs l).reports = s.reports := rfl
@[simp] theorem setInputs_inputs (s : State) (l : List HostAction) : (s.setInputs l).inputs = l := rfl
@[simp] theorem setInputs_reg (s : State) (l : List HostAction) (q : Reg) : (s.setInputs l).reg q = s.reg q := rfl

@[simp] theorem countRecord_regs (s : State) : (s.countRecord).regs = s.regs := rfl
@[simp] theorem countRecord_pc (s : State) : (s.countRecord).pc = s.pc := rfl
@[simp] theorem countRecord_ir (s : State) : (s.countRecord).ir = s.ir := rfl
@[simp] theorem countRecord_sp (s : State) : (s.countRecord).sp = s.sp := rfl
@[simp] theorem countRecord_flags (s : State) : (s.countRecord).flags = s.flags := rfl
@[simp] theorem countRecord_run (s : State) : (s.countRecord).run = s.run := rfl
@[simp] theorem countRecord_mem (s : State) : (s.countRecord).mem = s.mem := rfl
@[simp] theorem countRecord_stack (s : State) : (s.countRecord).stack = s.stack := rfl
@[simp] theorem countRecord_memTouched (s : State) : (s.countRecord).memTouched = s.memTouched := rfl
@[simp] theorem countRecord_stackTouched (s : State) : (s.countRecord).stackTouched = s.stackTouched := rfl
@[simp] theorem countRecord_accepted (s : State) : (s.countRecord).accepted = s.accepted + 1 := rfl
@[simp] theorem countRecord_events (s : State) : (s.countRecord).events = s.events := rfl
@[simp] theorem countRecord_reports (s : State) : (s.countRecord).reports = s.reports := rfl
@[simp] theorem countRecord_inputs (s : State) : (s.countRecord).inputs = s.inputs := rfl
@[simp] theorem countRecord_reg (s : State) (q : Reg) : (s.countRecord).reg q = s.reg q := rfl

@[simp] theorem emit_regs (s : State) (c : EventCode) (d : Word) : (s.emit c d).regs = s.regs := rfl
@[simp] theorem emit_pc (s : State) (c : EventCode) (d : Word) : (s.emit c d).pc = s.pc := rfl
@[simp] theorem emit_ir (s : State) (c : EventCode) (d : Word) : (s.emit c d).ir = s.ir := rfl
@[simp] theorem emit_sp (s : State) (c : EventCode) (d : Word) : (s.emit c d).sp = s.sp := rfl
@[simp] theorem emit_flags (s : State) (c : EventCode) (d : Word) : (s.emit c d).flags = s.flags := rfl
@[simp] theorem emit_run (s : State) (c : EventCode) (d : Word) : (s.emit c d).run = s.run := rfl
@[simp] theorem emit_mem (s : State) (c : EventCode) (d : Word) : (s.emit c d).mem = s.mem := rfl
@[simp] theorem emit_stack (s : State) (c : EventCode) (d : Word) : (s.emit c d).stack = s.stack := rfl
@[simp] theorem emit_memTouched (s : State) (c : EventCode) (d : Word) : (s.emit c d).memTouched = s.memTouched := rfl
@[simp] theorem emit_stackTouched (s : State) (c : EventCode) (d : Word) : (s.emit c d).stackTouched = s.stackTouched := rfl
@[simp] theorem emit_accepted (s : State) (c : EventCode) (d : Word) : (s.emit c d).accepted = s.accepted := rfl
@[simp] theorem emit_events (s : State) (c : EventCode) (d : Word) : (s.emit c d).events = s.events ++ [⟨c, d⟩] := rfl
@[simp] theorem emit_reports (s : State) (c : EventCode) (d : Word) : (s.emit c d).reports = s.reports := rfl
@[simp] theorem emit_inputs (s : State) (c : EventCode) (d : Word) : (s.emit c d).inputs = s.inputs := rfl
@[simp] theorem emit_reg (s : State) (c : EventCode) (d : Word) (q : Reg) : (s.emit c d).reg q = s.reg q := rfl

@[simp] theorem makeReport_regs (s : State) : (s.makeReport).regs = s.regs := rfl
@[simp] theorem makeReport_pc (s : State) : (s.makeReport).pc = s.pc := rfl
@[simp] theorem makeReport_ir (s : State) : (s.makeReport).ir = s.ir := rfl
@[simp] theorem makeReport_sp (s : State) : (s.makeReport).sp = s.sp := rfl
@[simp] theorem makeReport_flags (s : State) : (s.makeReport).flags = s.flags := rfl
@[simp] theorem makeReport_run (s : State) : (s.makeReport).run = s.run := rfl
@[simp] theorem makeReport_mem (s : State) : (s.makeReport).mem = s.mem := rfl
@[simp] theorem makeReport_stack (s : State) : (s.makeReport).stack = s.stack := rfl
@[simp] theorem makeReport_memTouched (s : State) : (s.makeReport).memTouched = s.memTouched := rfl
@[simp] theorem makeReport_stackTouched (s : State) : (s.makeReport).stackTouched = s.stackTouched := rfl
@[simp] theorem makeReport_accepted (s : State) : (s.makeReport).accepted = s.accepted := rfl
@[simp] theorem makeReport_events (s : State) : (s.makeReport).events = s.events := rfl
@[simp] theorem makeReport_reports (s : State) : (s.makeReport).reports = s.reports ++ [s.report] := rfl
@[simp] theorem makeReport_inputs (s : State) : (s.makeReport).inputs = s.inputs := rfl
@[simp] theorem makeReport_reg (s : State) (q : Reg) : (s.makeReport).reg q = s.reg q := rfl

@[simp] theorem storeWord_regs (s : State) (a v : Word) : (s.storeWord a v).regs = s.regs := rfl
@[simp] theorem storeWord_pc (s : State) (a v : Word) : (s.storeWord a v).pc = s.pc := rfl
@[simp] theorem storeWord_ir (s : State) (a v : Word) : (s.storeWord a v).ir = s.ir := rfl
@[simp] theorem storeWord_sp (s : State) (a v : Word) : (s.storeWord a v).sp = s.sp := rfl
@[simp] theorem storeWord_flags (s : State) (a v : Word) : (s.storeWord a v).flags = s.flags := rfl
@[simp] theorem storeWord_run (s : State) (a v : Word) : (s.storeWord a v).run = s.run := rfl
@[simp] theorem storeWord_mem (s : State) (a v : Word) : (s.storeWord a v).mem = s.mem.writeWord a v := rfl
@[simp] theorem storeWord_stack (s : State) (a v : Word) : (s.storeWord a v).stack = s.stack := rfl
@[simp] theorem storeWord_memTouched (s : State) (a v : Word) : (s.storeWord a v).memTouched = touch s.memTouched (a.toNat / 2) := rfl
@[simp] theorem storeWord_stackTouched (s : State) (a v : Word) : (s.storeWord a v).stackTouched = s.stackTouched := rfl
@[simp] theorem storeWord_accepted (s : State) (a v : Word) : (s.storeWord a v).accepted = s.accepted := rfl
@[simp] theorem storeWord_events (s : State) (a v : Word) : (s.storeWord a v).events = s.events := rfl
@[simp] theorem storeWord_reports (s : State) (a v : Word) : (s.storeWord a v).reports = s.reports := rfl
@[simp] theorem storeWord_inputs (s : State) (a v : Word) : (s.storeWord a v).inputs = s.inputs := rfl
@[simp] theorem storeWord_reg (s : State) (a v : Word) (q : Reg) : (s.storeWord a v).reg q = s.reg q := rfl

@[simp] theorem storeStack_regs (s : State) (j : Fin 256) (v : Word) : (s.storeStack j v).regs = s.regs := rfl
@[simp] theorem storeStack_pc (s : State) (j : Fin 256) (v : Word) : (s.storeStack j v).pc = s.pc := rfl
@[simp] theorem storeStack_ir (s : State) (j : Fin 256) (v : Word) : (s.storeStack j v).ir = s.ir := rfl
@[simp] theorem storeStack_sp (s : State) (j : Fin 256) (v : Word) : (s.storeStack j v).sp = s.sp := rfl
@[simp] theorem storeStack_flags (s : State) (j : Fin 256) (v : Word) : (s.storeStack j v).flags = s.flags := rfl
@[simp] theorem storeStack_run (s : State) (j : Fin 256) (v : Word) : (s.storeStack j v).run = s.run := rfl
@[simp] theorem storeStack_mem (s : State) (j : Fin 256) (v : Word) : (s.storeStack j v).mem = s.mem := rfl
@[simp] theorem storeStack_stack (s : State) (j : Fin 256) (v : Word) : (s.storeStack j v).stack = s.stack.set j v := rfl
@[simp] theorem storeStack_memTouched (s : State) (j : Fin 256) (v : Word) : (s.storeStack j v).memTouched = s.memTouched := rfl
@[simp] theorem storeStack_stackTouched (s : State) (j : Fin 256) (v : Word) : (s.storeStack j v).stackTouched = touch s.stackTouched j.val := rfl
@[simp] theorem storeStack_accepted (s : State) (j : Fin 256) (v : Word) : (s.storeStack j v).accepted = s.accepted := rfl
@[simp] theorem storeStack_events (s : State) (j : Fin 256) (v : Word) : (s.storeStack j v).events = s.events := rfl
@[simp] theorem storeStack_reports (s : State) (j : Fin 256) (v : Word) : (s.storeStack j v).reports = s.reports := rfl
@[simp] theorem storeStack_inputs (s : State) (j : Fin 256) (v : Word) : (s.storeStack j v).inputs = s.inputs := rfl
@[simp] theorem storeStack_reg (s : State) (j : Fin 256) (v : Word) (q : Reg) : (s.storeStack j v).reg q = s.reg q := rfl

/-- R141: an update of state that a report does not list leaves the report alone. -/
@[simp] theorem setRun_report (s : State) (r : RunState) : (s.setRun r).report = s.report := rfl
@[simp] theorem setInputs_report (s : State) (l : List HostAction) : (s.setInputs l).report = s.report := rfl
@[simp] theorem countRecord_report (s : State) : s.countRecord.report = s.report := rfl
@[simp] theorem emit_report (s : State) (c : EventCode) (d : Word) : (s.emit c d).report = s.report := rfl
@[simp] theorem makeReport_report (s : State) : s.makeReport.report = s.report := rfl
@[simp] theorem setIr_report (s : State) (v : Word) : (s.setIr v).report = { s.report with ir := v } := by
  simp only [State.report, setIr_regs, setIr_pc, setIr_ir, setIr_sp, setIr_flags, setIr_mem, setIr_memTouched,
    setIr_stack, setIr_stackTouched]

/-- R141: the fields of a report. -/
@[simp] theorem report_regs (s : State) : s.report.regs = s.regs := rfl
@[simp] theorem report_pc (s : State) : s.report.pc = s.pc := rfl
@[simp] theorem report_ir (s : State) : s.report.ir = s.ir := rfl
@[simp] theorem report_sp (s : State) : s.report.sp = s.sp := rfl
@[simp] theorem report_flags (s : State) : s.report.flags = s.flags := rfl
@[simp] theorem report_memCells (s : State) : s.report.memCells = touchedWords s.mem s.memTouched := by
  simp only [State.report]
@[simp] theorem report_stackCells (s : State) : s.report.stackCells = touchedCells s.stack s.stackTouched := by
  simp only [State.report]

/-- R116, R117, R121: every field after a stop. -/
@[simp] theorem stop_run (s : State) (r : RunState) (c : EventCode) (d : Word) : (s.stop r c d).run = r := rfl
@[simp] theorem stop_events (s : State) (r : RunState) (c : EventCode) (d : Word) :
    (s.stop r c d).events = s.events ++ [⟨c, d⟩] := rfl
@[simp] theorem stop_reports (s : State) (r : RunState) (c : EventCode) (d : Word) :
    (s.stop r c d).reports = s.reports ++ [s.report] := rfl
@[simp] theorem stop_report (s : State) (r : RunState) (c : EventCode) (d : Word) :
    (s.stop r c d).report = s.report := rfl
@[simp] theorem stop_regs (s : State) (r : RunState) (c : EventCode) (d : Word) : (s.stop r c d).regs = s.regs := rfl
@[simp] theorem stop_pc (s : State) (r : RunState) (c : EventCode) (d : Word) : (s.stop r c d).pc = s.pc := rfl
@[simp] theorem stop_ir (s : State) (r : RunState) (c : EventCode) (d : Word) : (s.stop r c d).ir = s.ir := rfl
@[simp] theorem stop_sp (s : State) (r : RunState) (c : EventCode) (d : Word) : (s.stop r c d).sp = s.sp := rfl
@[simp] theorem stop_flags (s : State) (r : RunState) (c : EventCode) (d : Word) : (s.stop r c d).flags = s.flags := rfl
@[simp] theorem stop_mem (s : State) (r : RunState) (c : EventCode) (d : Word) : (s.stop r c d).mem = s.mem := rfl
@[simp] theorem stop_stack (s : State) (r : RunState) (c : EventCode) (d : Word) : (s.stop r c d).stack = s.stack := rfl
@[simp] theorem stop_memTouched (s : State) (r : RunState) (c : EventCode) (d : Word) : (s.stop r c d).memTouched = s.memTouched := rfl
@[simp] theorem stop_stackTouched (s : State) (r : RunState) (c : EventCode) (d : Word) : (s.stop r c d).stackTouched = s.stackTouched := rfl
@[simp] theorem stop_accepted (s : State) (r : RunState) (c : EventCode) (d : Word) : (s.stop r c d).accepted = s.accepted := rfl
@[simp] theorem stop_inputs (s : State) (r : RunState) (c : EventCode) (d : Word) : (s.stop r c d).inputs = s.inputs := rfl
@[simp] theorem stop_reg (s : State) (r : RunState) (c : EventCode) (d : Word) (q : Reg) :
    (s.stop r c d).reg q = s.reg q := rfl

/-- R15, R17: a register read after a register write. -/
theorem setReg_reg (s : State) (r : Reg) (v : Word) (q : Reg) :
    (s.setReg r v).reg q = if q = r then v else s.reg q := by
  simp only [State.reg, State.setReg, Vector.get_eq_getElem, Vector.getElem_set]
  by_cases h : q = r
  · simp [h]
  · have : r.val ≠ q.val := fun h' => h (Fin.ext h'.symm)
    simp [h, this]

@[simp] theorem setReg_reg_same (s : State) (r : Reg) (v : Word) : (s.setReg r v).reg r = v := by
  simp [setReg_reg]

theorem setReg_reg_other (s : State) (r : Reg) (v : Word) (q : Reg) (h : q ≠ r) :
    (s.setReg r v).reg q = s.reg q := by
  simp [setReg_reg, h]

end Sys2Proof.Machine
end

