-- ==== Sys2Proof/Laws/Memory.lean ====
section
/-! SUPPORT. Memory: read after write, the canonical form kept by every operation, and equal reads give
equal data. -/

namespace Sys2Proof.Machine

/-- What the canonical form says of a non-empty list. -/
theorem cellsWf_cons (lo : Nat) (c : Host.Cell) (rest : List Host.Cell) :
    cellsWf lo (c :: rest) = true ↔
      lo ≤ c.1 ∧ c.1 < 2048 ∧ c.2 ≠ 0xFF#8 ∧ cellsWf (c.1 + 1) rest = true := by
  simp [cellsWf, and_assoc]

theorem cellsWf_mono {lo lo' : Nat} {cs : List Host.Cell} (h : cellsWf lo cs = true) (hl : lo' ≤ lo) :
    cellsWf lo' cs = true := by
  cases cs with
  | nil => rfl
  | cons c rest =>
    rw [cellsWf_cons] at h ⊢
    exact ⟨by omega, h.2⟩

/-- An address below every listed one reads as the fill. -/
theorem cellsRead_below {lo a : Nat} {cs : List Host.Cell} (h : cellsWf lo cs = true) (ha : a < lo) :
    cellsRead cs a = 0xFF#8 := by
  induction cs generalizing lo with
  | nil => rfl
  | cons c rest ih =>
    rw [cellsWf_cons] at h
    have hc : c.1 ≠ a := by omega
    simp only [cellsRead, hc, if_false]
    exact ih h.2.2.2 (by omega)

/-- An address outside memory reads as the fill. -/
theorem cellsRead_above {lo a : Nat} {cs : List Host.Cell} (h : cellsWf lo cs = true) (ha : 2048 ≤ a) :
    cellsRead cs a = 0xFF#8 := by
  induction cs generalizing lo with
  | nil => rfl
  | cons c rest ih =>
    rw [cellsWf_cons] at h
    have hc : c.1 ≠ a := by omega
    simp only [cellsRead, hc, if_false]
    exact ih h.2.2.2

/-- A byte read after a byte write. -/
theorem cellsRead_cellsWrite {lo : Nat} {cs : List Host.Cell} (h : cellsWf lo cs = true) (a : Nat) (b : Byte)
    (x : Nat) : cellsRead (cellsWrite cs a b) x = if x = a then b else cellsRead cs x := by
  induction cs generalizing lo with
  | nil =>
    by_cases hb : b = Config.memFill
    · by_cases hx : x = a <;> simp [cellsWrite, cellsRead, hb, hx]
    · simp [cellsWrite, cellsRead, hb, eq_comm]
  | cons c rest ih =>
    rw [cellsWf_cons] at h
    have hrest := h.2.2.2
    have below : ∀ y, y < c.1 + 1 → cellsRead rest y = 0xFF#8 := fun y hy => cellsRead_below hrest hy
    simp only [cellsWrite]
    split
    · rename_i hlt
      have hne : c.1 ≠ a := by omega
      by_cases hb : b = Config.memFill
      · by_cases hx : x = a
        · subst hx
          simp [hb, cellsRead, hne, below x (by omega)]
        · simp [hb, hx]
      · simp [hb, cellsRead, eq_comm]
    · split
      · rename_i _ heq
        by_cases hb : b = Config.memFill
        · by_cases hx : x = a
          · subst hx
            simp [hb, below x (by omega)]
          · simp [hb, hx, cellsRead, ← heq, Ne.symm hx]
        · by_cases hx : x = a
          · simp [hb, hx, cellsRead]
          · simp [hb, hx, cellsRead, ← heq, Ne.symm hx]
      · rename_i _ hne
        by_cases hx : c.1 = x
        · have : x ≠ a := by omega
          simp [cellsRead, hx, this]
        · simp [cellsRead, hx, ih hrest]

/-- A byte write in memory keeps the canonical form. -/
theorem cellsWf_cellsWrite {lo : Nat} {cs : List Host.Cell} (h : cellsWf lo cs = true) {a : Nat} (b : Byte)
    (hlo : lo ≤ a) (ha : a < 2048) : cellsWf lo (cellsWrite cs a b) = true := by
  induction cs generalizing lo with
  | nil =>
    by_cases hb : b = Config.memFill
    · simp [cellsWrite, hb, cellsWf]
    · simp only [cellsWrite, hb, if_false]
      rw [cellsWf_cons]
      exact ⟨hlo, ha, hb, rfl⟩
  | cons c rest ih =>
    have hc := (cellsWf_cons _ _ _).1 h
    simp only [cellsWrite]
    split
    · rename_i hlt
      by_cases hb : b = Config.memFill
      · simpa [hb] using h
      · simp only [hb, if_false]
        rw [cellsWf_cons]
        exact ⟨hlo, ha, hb, (cellsWf_cons _ _ _).2 ⟨hlt, hc.2⟩⟩
    · split
      · rename_i _ heq
        by_cases hb : b = Config.memFill
        · simpa [hb] using cellsWf_mono hc.2.2.2 (by omega)
        · simp only [hb, if_false]
          rw [cellsWf_cons]
          exact ⟨hlo, ha, hb, by rw [heq]; exact hc.2.2.2⟩
      · rename_i _ hne
        rw [cellsWf_cons]
        exact ⟨hc.1, hc.2.1, hc.2.2.1, ih hc.2.2.2 (by omega)⟩

/-- R53: a byte read after a byte write. -/
theorem readByte_writeByte {m : Memory} (h : m.wf = true) (a : Nat) (b : Byte) (x : Nat) :
    (m.writeByte a b).readByte x = if x = a then b else m.readByte x :=
  cellsRead_cellsWrite h a b x

theorem wf_writeByte {m : Memory} (h : m.wf = true) {a : Nat} (b : Byte) (ha : a < 2048) :
    (m.writeByte a b).wf = true :=
  cellsWf_cellsWrite h b (Nat.zero_le a) ha

/-- R42: what the address check says. -/
theorem validDataAddr_iff (a : Word) : validDataAddr a = true ↔ a.toNat % 2 = 0 ∧ a.toNat < 2048 := by
  simp [validDataAddr, BitVec.getLsbD, Nat.testBit_zero]

theorem validDataAddr_eq_false (a : Word) : validDataAddr a = false ↔ a.toNat % 2 = 1 ∨ 2048 ≤ a.toNat := by
  rw [← Bool.not_eq_true, validDataAddr_iff]
  omega

/-- The two bytes of a word in memory lie below the limit. -/
theorem wordBase_lt {a : Word} (h : a.toNat < 2048) : wordBase a + 1 < 2048 := by
  unfold wordBase
  omega

theorem wordBase_even {a : Word} (h : a.toNat % 2 = 0) : wordBase a = a.toNat := by
  unfold wordBase
  omega

/-- A word write keeps the canonical form, at any address inside memory. -/
theorem wf_writeWord {m : Memory} (h : m.wf = true) {a : Word} (v : Word) (ha : a.toNat < 2048) :
    (m.writeWord a v).wf = true :=
  wf_writeByte (wf_writeByte h _ (by have := wordBase_lt ha; omega)) _ (wordBase_lt ha)

/-- What every byte reads as after a word write. -/
theorem readByte_writeWord {m : Memory} (h : m.wf = true) {a : Word} (v : Word) (ha : a.toNat < 2048) (x : Nat) :
    (m.writeWord a v).readByte x =
      if x = wordBase a + 1 then v.extractLsb' 8 8
      else if x = wordBase a then v.extractLsb' 0 8 else m.readByte x := by
  unfold Memory.writeWord
  rw [readByte_writeByte (wf_writeByte h _ (by have := wordBase_lt ha; omega)), readByte_writeByte h]

/-- R53: a word read after a write to its own cell. -/
theorem readWord_writeWord_same {m : Memory} (h : m.wf = true) {a : Word} (v : Word) (ha : a.toNat < 2048)
    {x : Word} (hx : x.toNat / 2 = a.toNat / 2) : (m.writeWord a v).readWord x = v := by
  have hb : wordBase x = wordBase a := by unfold wordBase; omega
  unfold Memory.readWord
  rw [readByte_writeWord h v ha, readByte_writeWord h v ha, hb]
  simp only [if_true, Nat.left_eq_add, Nat.succ_ne_self, if_false]
  apply BitVec.eq_of_getLsbD_eq
  intro i hi
  simp only [BitVec.getLsbD_append, BitVec.getLsbD_extractLsb', Nat.zero_add]
  by_cases h8 : i < 8
  · simp [h8]
  · have h' : 8 + (i - 8) = i := by omega
    have h'' : i - 8 < 8 := by omega
    simp [h8, h', h'']

/-- R46: a word read after a write to another cell. -/
theorem readWord_writeWord_other {m : Memory} (h : m.wf = true) {a : Word} (v : Word) (ha : a.toNat < 2048)
    {x : Word} (hx : x.toNat / 2 ≠ a.toNat / 2) : (m.writeWord a v).readWord x = m.readWord x := by
  unfold Memory.readWord
  rw [readByte_writeWord h v ha, readByte_writeWord h v ha]
  have h1 : wordBase x + 1 ≠ wordBase a + 1 := by unfold wordBase; omega
  have h2 : wordBase x + 1 ≠ wordBase a := by unfold wordBase; omega
  have h3 : wordBase x ≠ wordBase a + 1 := by unfold wordBase; omega
  have h4 : wordBase x ≠ wordBase a := by unfold wordBase; omega
  rw [if_neg h1, if_neg h2, if_neg h3, if_neg h4]

/-- A word whose two bytes both read as the fill is the sentinel. -/
theorem readWord_of_fill {m : Memory} {a : Word} (h0 : m.readByte (wordBase a) = 0xFF#8)
    (h1 : m.readByte (wordBase a + 1) = 0xFF#8) : m.readWord a = 0xFFFF#16 := by
  unfold Memory.readWord
  rw [h0, h1]
  rfl

theorem reset_readByte (x : Nat) : State.reset.mem.readByte x = 0xFF#8 := rfl

theorem reset_mem_wf : State.reset.mem.wf = true := rfl

end Sys2Proof.Machine
end

