-- ==== Sys2Proof/Laws/Ops.lean ====
section
/-! SUPPORT. For each shared operation one lemma that says everything it can do: the touched bits, the stack
unit, the operand forms, the flag unit, the stops, the load interface, the sequencer and the clock edge. -/

namespace Sys2Proof.Machine

/-- R28: a touched bit after a cell is touched. -/
theorem touch_getLsbD {n : Nat} (bits : BitVec n) {k : Nat} (hk : k < n) (x : Nat) :
    (touch bits k).getLsbD x = (bits.getLsbD x || decide (x = k)) := by
  unfold touch
  rw [BitVec.getLsbD_or, BitVec.getLsbD_twoPow]
  by_cases h : x = k
  · subst h; simp [hk]
  · simp [h, Ne.symm h]

theorem touch_getLsbD_iff {n : Nat} (bits : BitVec n) {k : Nat} (hk : k < n) (x : Nat) :
    (touch bits k).getLsbD x = true ↔ bits.getLsbD x = true ∨ x = k := by
  rw [touch_getLsbD bits hk, Bool.or_eq_true, decide_eq_true_eq]

/-- A touched bit stays set. -/
theorem touch_getLsbD_of_set {n : Nat} {bits : BitVec n} {x : Nat} (k : Nat) (h : bits.getLsbD x = true) :
    (touch bits k).getLsbD x = true := by
  unfold touch
  rw [BitVec.getLsbD_or, h, Bool.true_or]

/-- R50: which addresses have a stack cell, and its index. -/
theorem stackIndex_eq_some (a : Word) (j : Fin 256) :
    stackIndex a = some j ↔
      a.toNat % 2 = 0 ∧ 0x8000 ≤ a.toNat ∧ a.toNat < 0x8200 ∧ j.val = (0x8200 - a.toNat) / 2 - 1 := by
  unfold stackIndex
  split
  · rename_i h
    have h1 := h.1
    have h2 : 0x8000 ≤ a.toNat := h.2.1
    have h3 : a.toNat < 0x8200 := h.2.2
    simp only [Option.some.injEq, Fin.ext_iff]
    constructor
    · intro e
      exact ⟨h1, h2, h3, e.symm⟩
    · intro e
      exact e.2.2.2.symm
  · rename_i h
    constructor
    · intro e
      cases e
    · intro e
      exact absurd ⟨e.1, e.2.1, e.2.2.1⟩ h

/-- The sum or difference of SP and 2 inside the stack's range does not wrap. -/
theorem sp_sub_two {sp : Word} (h : 2 ≤ sp.toNat) : (sp - 2#16).toNat = sp.toNat - 2 := by
  bv_omega

theorem sp_add_two {sp : Word} (h : sp.toNat ≤ 0x8200) : (sp + 2#16).toNat = sp.toNat + 2 := by
  bv_omega

/-- R48: all that a push can do. -/
theorem push_next {v : Word} {s t : State} (h : push v s = .next t) :
    (stackDepth s.sp = 256 ∧ t = s.emit .stackOvf s.sp) ∨
      (stackDepth s.sp ≠ 256 ∧ ∃ j : Fin 256, stackIndex (s.sp - 2#16) = some j ∧
        t = (s.setSp (s.sp - 2#16)).storeStack j v) := by
  unfold push at h
  split at h
  · rename_i hd
    cases h
    exact .inl ⟨hd, rfl⟩
  · rename_i hd
    split at h
    · cases h
    · rename_i j hj
      cases h
      exact .inr ⟨hd, j, hj, rfl⟩

/-- R48: a push on a full stack. -/
theorem push_full {v : Word} {s : State} (h : s.sp.toNat = 0x8000) : push v s = .next (s.emit .stackOvf s.sp) := by
  have hd : stackDepth s.sp = Config.stackWords := by unfold stackDepth; simp [h]
  simp [push, hd]

/-- R48: a push below the full depth. -/
theorem push_room {v : Word} {s : State} (he : s.sp.toNat % 2 = 0) (hl : 0x8000 < s.sp.toNat)
    (hh : s.sp.toNat ≤ 0x8200) :
    ∃ j : Fin 256, j.val = (0x8200 - s.sp.toNat) / 2 ∧ stackIndex (s.sp - 2#16) = some j ∧
      push v s = .next ((s.setSp (s.sp - 2#16)).storeStack j v) := by
  have hsub := sp_sub_two (sp := s.sp) (by omega)
  have hd : stackDepth s.sp ≠ Config.stackWords := by
    intro h
    have h' : (0x8200 - s.sp.toNat) / 2 = 256 := h
    omega
  refine ⟨⟨(0x8200 - s.sp.toNat) / 2, by omega⟩, rfl, ?_⟩
  have hi : stackIndex (s.sp - 2#16) = some ⟨(0x8200 - s.sp.toNat) / 2, by omega⟩ := by
    rw [stackIndex_eq_some, hsub]
    refine ⟨by omega, by omega, by omega, ?_⟩
    show (0x8200 - s.sp.toNat) / 2 = (0x8200 - (s.sp.toNat - 2)) / 2 - 1
    omega
  refine ⟨hi, ?_⟩
  simp [push, hd, hi]

/-- R49: all that a pop can do. -/
theorem pop_next {s t : State} {v : Word} (h : pop s = .next (v, t)) :
    (0x8200 ≤ s.sp.toNat ∧ v = 0#16 ∧ t = s.emit .stackUnf s.sp) ∨
      (s.sp.toNat < 0x8200 ∧ ∃ j : Fin 256, stackIndex s.sp = some j ∧ v = s.stack.get j ∧
        t = s.setSp (s.sp + 2#16)) := by
  unfold pop at h
  split at h
  · rename_i hd
    cases h
    exact .inl ⟨hd, rfl, rfl⟩
  · rename_i hd
    split at h
    · cases h
    · rename_i j hj
      cases h
      exact .inr ⟨Nat.lt_of_not_le hd, j, hj, rfl, rfl⟩

/-- R49: a pop on an empty stack. -/
theorem pop_empty {s : State} (h : 0x8200 ≤ s.sp.toNat) : pop s = .next (0#16, s.emit .stackUnf s.sp) := by
  have : Config.stackBase.toNat ≤ s.sp.toNat := h
  simp only [pop, this, if_true]

/-- R49: a pop of a cell. -/
theorem pop_cell {s : State} (he : s.sp.toNat % 2 = 0) (hl : 0x8000 ≤ s.sp.toNat) (hh : s.sp.toNat < 0x8200) :
    ∃ j : Fin 256, j.val = (0x8200 - s.sp.toNat) / 2 - 1 ∧
      pop s = .next (s.stack.get j, s.setSp (s.sp + 2#16)) := by
  refine ⟨⟨(0x8200 - s.sp.toNat) / 2 - 1, by omega⟩, rfl, ?_⟩
  have hi : stackIndex s.sp = some ⟨(0x8200 - s.sp.toNat) / 2 - 1, by omega⟩ := by
    rw [stackIndex_eq_some]
    exact ⟨he, hl, hh, rfl⟩
  have hn : ¬ Config.stackBase.toNat ≤ s.sp.toNat := Nat.not_le.2 hh
  simp only [pop, hn, if_false, hi]

/-- What follows an answered state. -/
theorem andThen_next {σ τ : Type} {o : Host.Outcome σ Fault Refusal} {f : σ → Host.Outcome τ Fault Refusal} {t : τ}
    (h : andThen o f = .next t) : ∃ s, o = .next s ∧ f s = .next t := by
  cases o with
  | next s => exact ⟨s, rfl, h⟩
  | fault r => cases h
  | refused r => cases h

@[simp] theorem andThen_of_next {σ τ : Type} (s : σ) (f : σ → Host.Outcome τ Fault Refusal) :
    andThen (.next s) f = f s := rfl

/-- A word's stack cells after a stack write. -/
theorem storeStack_get (s : State) (j : Fin 256) (v : Word) (k : Fin 256) :
    (s.storeStack j v).stack.get k = if k = j then v else s.stack.get k := by
  simp only [storeStack_stack, Vector.get_eq_getElem, Vector.getElem_set]
  by_cases h : k = j
  · simp [h]
  · have : j.val ≠ k.val := fun h' => h (Fin.ext h'.symm)
    simp [h, this]

/-- R80: the branch target as an integer. -/
theorem branchWrite_toNat (pc : Word) (d : Int) :
    ((branchWrite pc d).toNat : Int) = ((pc.toNat : Int) + d - 2) % 65536 := by
  unfold branchWrite
  rw [BitVec.toNat_sub, BitVec.toNat_add, BitVec.toNat_ofInt]
  have h2 : (2#16).toNat = 2 := rfl
  rw [h2]
  push_cast
  omega

/-- R80, R122: the +2 after a taken jump lands at PC + disp. -/
theorem branchWrite_add_two (pc : Word) (d : Int) : branchWrite pc d + 2#16 = pc + BitVec.ofInt 16 d := by
  unfold branchWrite
  exact BitVec.sub_add_cancel _ _

/-- R61: the immediate's value. -/
theorem immOperand_toNat (k : Byte) : (immOperand k).toNat = k.toNat := by
  unfold immOperand
  rw [BitVec.toNat_setWidth]
  have := k.isLt
  omega

/-- A jump changes PC at most. -/
theorem jumpIf_eq (b : Bool) (d : Int) (s : State) :
    jumpIf b d s = s.setPc (if b then branchWrite s.pc d else s.pc) := by
  cases b <;> rfl

/-- R93 to R97: every flag of every kind. -/
theorem computeFlags_zero (r a b : Word) (k : FlagKind) :
    (computeFlags r a b k).zero = true ↔ r.toNat = 0 := by
  simp [computeFlags, BitVec.toNat_eq]

theorem computeFlags_sign (r a b : Word) (k : FlagKind) :
    (computeFlags r a b k).sign = true ↔ 0x8000 ≤ r.toNat := by
  simp [computeFlags, BitVec.msb_eq_decide]

/-- R93: Zero excludes Sign. -/
theorem computeFlags_exclusive (r a b : Word) (k : FlagKind)
    (h : (computeFlags r a b k).zero = true) : (computeFlags r a b k).sign = false := by
  rw [computeFlags_zero] at h
  rw [← Bool.not_eq_true, computeFlags_sign]
  omega

@[simp] theorem writeResult_flags (rd : Reg) (r a b : Word) (k : FlagKind) (s : State) :
    (writeResult rd r a b k s).flags = computeFlags r a b k := rfl

@[simp] theorem writeResult_regs (rd : Reg) (r a b : Word) (k : FlagKind) (s : State) :
    (writeResult rd r a b k s).regs = s.regs.set rd r := rfl

theorem writeResult_reg (rd : Reg) (r a b : Word) (k : FlagKind) (s : State) (q : Reg) :
    (writeResult rd r a b k s).reg q = if q = rd then r else s.reg q := setReg_reg s rd r q

/-- R43, R88, R89: all that a checked store can do. -/
theorem checkedStore_cases (a v : Word) (s : State) :
    (validDataAddr a = true ∧ checkedStore a v s = s.storeWord a v) ∨
      (validDataAddr a = false ∧ checkedStore a v s = s.emit .memWarn a) := by
  unfold checkedStore
  cases validDataAddr a <;> simp

/-- R43, R90: all that a checked load can do. -/
theorem checkedLoad_cases (rd : Reg) (a : Word) (s : State) :
    (validDataAddr a = true ∧ checkedLoad rd a s = s.setReg rd (s.mem.readWord a)) ∨
      (validDataAddr a = false ∧ checkedLoad rd a s = s.emit .memWarn a) := by
  unfold checkedLoad
  cases validDataAddr a <;> simp

/-- R147, R148: all that a load record can do. -/
theorem loadRecord_cases (a w : Word) (s : State) :
    (validDataAddr a = true ∧ loadRecord a w s = (s.storeWord a w).countRecord) ∨
      (validDataAddr a = false ∧ loadRecord a w s = (s.emit .loadBadAddr a).setRun .loadFailed) := by
  unfold loadRecord
  cases validDataAddr a <;> simp

/-- R150: all that `Start` can do. -/
theorem startCore_cases (s : State) :
    (s.accepted = 0 ∧ startCore s = (s.emit .loadEmpty 0#16).setRun .loadFailed) ∨
      (s.accepted ≠ 0 ∧ startCore s = s.setRun .running) := by
  unfold startCore
  by_cases h : s.accepted = 0 <;> simp [h]

/-- R119 to R121: all that a fetched word can do. -/
theorem runWord_next {w : Word} {s t : State} (h : runWord w s = .next t) :
    (∃ e, decode w = .error e ∧ t = s.stop .faulted .decodeFatal w) ∨
      (∃ i u, decode w = .ok i ∧ exec i s = .next u ∧ t = u.setPc (u.pc + 2#16)) := by
  unfold runWord at h
  split at h
  · rename_i e he
    cases h
    exact .inl ⟨e, he, rfl⟩
  · rename_i i hi
    obtain ⟨u, hu, ht⟩ := andThen_next h
    cases ht
    exact .inr ⟨i, u, hi, hu, rfl⟩

/-- R115: all that a step of the sequencer can do. -/
theorem sequencerStep_next {s t : State} (h : sequencerStep s = .next t) :
    (2048 ≤ s.pc.toNat ∧ t = s.stop .halted .haltPcRange s.pc) ∨
      (s.pc.toNat < 2048 ∧ fetchWord s = 0xFFFF#16 ∧ t = s.stop .halted .haltSentinel s.pc) ∨
      (s.pc.toNat < 2048 ∧ fetchWord s ≠ 0xFFFF#16 ∧
        runWord (fetchWord s) (s.setIr (fetchWord s)) = .next t) := by
  unfold sequencerStep at h
  split at h
  · rename_i hp
    split at h
    · rename_i hw
      cases h
      exact .inr (.inl ⟨hp, hw, rfl⟩)
    · rename_i hw
      exact .inr (.inr ⟨hp, hw, h⟩)
  · rename_i hp
    cases h
    exact .inl ⟨Nat.le_of_not_lt hp, rfl⟩

/-- All that a clock edge can do. -/
theorem clockEdge_next {a : HostAction} {s t : State} (h : clockEdge a s = .next t) :
    (a = .rst ∧ s.run ≠ .running ∧ t = State.reset.setInputs s.inputs) ∨
      (a ≠ .rst ∧ s.run = .idle ∧ t = idleEdge a s) ∨
      (a ≠ .rst ∧ s.run = .running ∧ sequencerStep s = .next t) ∨
      (a ≠ .rst ∧ s.run ≠ .idle ∧ s.run ≠ .running ∧ t = s) := by
  unfold clockEdge at h
  split at h
  · rename_i ha
    unfold resetEdge at h
    split at h
    · cases h
    · rename_i hr
      cases h
      exact .inl ⟨ha, hr, rfl⟩
  · rename_i ha
    cases hr : s.run <;> simp only [hr] at h
    · cases h
      exact .inr (.inl ⟨ha, rfl, rfl⟩)
    · exact .inr (.inr (.inl ⟨ha, rfl, h⟩))
    · cases h
      exact .inr (.inr (.inr ⟨ha, by simp, by simp, rfl⟩))
    · cases h
      exact .inr (.inr (.inr ⟨ha, by simp, by simp, rfl⟩))
    · cases h
      exact .inr (.inr (.inr ⟨ha, by simp, by simp, rfl⟩))

end Sys2Proof.Machine
end

