-- ==== Sys2Proof/Laws/PerInstr.lean ====
section
/-! SUPPORT. Facts about every instruction as syntax, one lemma per constructor. Family `OpcodeRow`: the word
`encode` writes carries the fixed bits of the instruction's row of spec/opcode_table.json. -/

namespace Sys2Proof

/-- The (match, mask) pair of each row of spec/opcode_table.json. -/
def opcodeRow (i : Instr) : Word × Word :=
  match i with
  | .nop => (0x0000#16, 0xFFFF#16)
  | .push _ => (0x0001#16, 0xF803#16)
  | .pop _ => (0x0002#16, 0xF803#16)
  | .cmp _ _ => (0x0003#16, 0xF803#16)
  | .jmp _ => (0x0800#16, 0xF803#16)
  | .jeq _ => (0x0801#16, 0xF803#16)
  | .jlt _ => (0x0802#16, 0xF803#16)
  | .jgt _ => (0x0803#16, 0xF803#16)
  | .mov _ _ => (0x1000#16, 0xF800#16)
  | .movi _ _ => (0x1800#16, 0xF800#16)
  | .store _ _ => (0x2000#16, 0xF800#16)
  | .storei _ _ => (0x2800#16, 0xF800#16)
  | .load _ _ => (0x3000#16, 0xF800#16)
  | .add _ _ _ => (0x4000#16, 0xF800#16)
  | .sub _ _ _ => (0x5000#16, 0xF800#16)
  | .mul _ _ _ => (0x6000#16, 0xF800#16)
  | .and _ _ _ => (0x7000#16, 0xF800#16)
  | .or _ _ _ => (0x8000#16, 0xF800#16)
  | .not _ _ => (0x9000#16, 0xF800#16)
  | .xor _ _ _ => (0xA000#16, 0xF800#16)
  | .shr _ _ => (0xB000#16, 0xF800#16)
  | .shri _ _ _ => (0xB800#16, 0xF800#16)
  | .shl _ _ => (0xC000#16, 0xF800#16)
  | .shli _ _ _ => (0xC800#16, 0xF800#16)
  | .ror _ _ => (0xD000#16, 0xF800#16)
  | .rol _ _ => (0xE000#16, 0xF800#16)
  | .halt => (0xFFFF#16, 0xFFFF#16)

/-- The word of an instruction matches its row. -/
def Laws.OpcodeRow.Statement (i : Instr) : Prop :=
  encode i &&& (opcodeRow i).2 = (opcodeRow i).1

/-- A register layout under a mask that keeps op, i and the bits `m` of the selector. -/
theorem registerLayout_and (op : BitVec 4) (i : BitVec 1) (a b c : BitVec 3) (sel m : BitVec 2) :
    (op ++ i ++ a ++ b ++ c ++ sel) &&& (BitVec.allOnes 4 ++ BitVec.allOnes 1 ++ 0#3 ++ 0#3 ++ 0#3 ++ m) =
      op ++ i ++ 0#3 ++ 0#3 ++ 0#3 ++ (sel &&& m) := by
  simp only [BitVec.and_append, BitVec.and_allOnes, BitVec.and_zero]

theorem jumpLayout_and (op : BitVec 4) (i : BitVec 1) (a : BitVec 9) (sel : BitVec 2) :
    (op ++ i ++ a ++ sel) &&& (BitVec.allOnes 4 ++ BitVec.allOnes 1 ++ 0#9 ++ BitVec.allOnes 2) =
      op ++ i ++ 0#9 ++ sel := by
  simp only [BitVec.and_append, BitVec.and_allOnes, BitVec.and_zero]

theorem immLayout_and (op : BitVec 4) (i : BitVec 1) (a : BitVec 3) (k : BitVec 8) :
    (op ++ i ++ a ++ k) &&& (BitVec.allOnes 4 ++ BitVec.allOnes 1 ++ 0#3 ++ 0#8) = op ++ i ++ 0#3 ++ 0#8 := by
  simp only [BitVec.and_append, BitVec.and_allOnes, BitVec.and_zero]

theorem shiftLayout_and (op : BitVec 4) (i : BitVec 1) (a b : BitVec 3) (z : BitVec 2) (n : BitVec 3) :
    (op ++ i ++ a ++ b ++ z ++ n) &&& (BitVec.allOnes 4 ++ BitVec.allOnes 1 ++ 0#3 ++ 0#3 ++ 0#2 ++ 0#3) =
      op ++ i ++ 0#3 ++ 0#3 ++ 0#2 ++ 0#3 := by
  simp only [BitVec.and_append, BitVec.and_allOnes, BitVec.and_zero]

/-- Under the mask 0xF800 only op and i of the register layouts remain. -/
theorem encodeFields_mask5 (op : BitVec 4) (i : BitVec 1) (rd rm rn : Reg) (sel : BitVec 2) :
    encodeFields op i rd rm rn sel &&& 0xF800#16 = op ++ i ++ 0#3 ++ 0#3 ++ 0#3 ++ 0#2 := by
  have h := registerLayout_and op i (regBits rd) (regBits rm) (regBits rn) sel 0#2
  rw [BitVec.and_zero] at h
  exact h

/-- Under the mask 0xF803 op, i and the selector remain. -/
theorem encodeFields_mask7 (op : BitVec 4) (i : BitVec 1) (rd rm rn : Reg) (sel : BitVec 2) :
    encodeFields op i rd rm rn sel &&& 0xF803#16 = op ++ i ++ 0#3 ++ 0#3 ++ 0#3 ++ sel := by
  have h := registerLayout_and op i (regBits rd) (regBits rm) (regBits rn) sel (BitVec.allOnes 2)
  rw [BitVec.and_allOnes] at h
  exact h

theorem encodeJump_mask7 (d : Int) (sel : BitVec 2) :
    encodeJump d sel &&& 0xF803#16 = 0x0#4 ++ 1#1 ++ 0#9 ++ sel :=
  jumpLayout_and 0x0#4 1#1 (BitVec.ofInt 9 d) sel

theorem encodeImm8_mask5 (op : BitVec 4) (rd : Reg) (k : Byte) :
    encodeImm8 op rd k &&& 0xF800#16 = op ++ 1#1 ++ 0#3 ++ 0#8 :=
  immLayout_and op 1#1 (regBits rd) k

theorem encodeShift_mask5 (op : BitVec 4) (rd rm : Reg) (n : Nat) :
    encodeShift op rd rm n &&& 0xF800#16 = op ++ 1#1 ++ 0#3 ++ 0#3 ++ 0#2 ++ 0#3 :=
  shiftLayout_and op 1#1 (regBits rd) (regBits rm) 0#2 (BitVec.ofNat 3 n)

theorem Laws.OpcodeRow.nop : Laws.OpcodeRow.Statement (.nop) :=
  rfl

theorem Laws.OpcodeRow.push (rn : Reg) : Laws.OpcodeRow.Statement (.push rn) :=
  encodeFields_mask7 _ _ _ _ _ _

theorem Laws.OpcodeRow.pop (rd : Reg) : Laws.OpcodeRow.Statement (.pop rd) :=
  encodeFields_mask7 _ _ _ _ _ _

theorem Laws.OpcodeRow.cmp (rm rn : Reg) : Laws.OpcodeRow.Statement (.cmp rm rn) :=
  encodeFields_mask7 _ _ _ _ _ _

theorem Laws.OpcodeRow.jmp (disp : Int) : Laws.OpcodeRow.Statement (.jmp disp) :=
  encodeJump_mask7 _ _

theorem Laws.OpcodeRow.jeq (disp : Int) : Laws.OpcodeRow.Statement (.jeq disp) :=
  encodeJump_mask7 _ _

theorem Laws.OpcodeRow.jlt (disp : Int) : Laws.OpcodeRow.Statement (.jlt disp) :=
  encodeJump_mask7 _ _

theorem Laws.OpcodeRow.jgt (disp : Int) : Laws.OpcodeRow.Statement (.jgt disp) :=
  encodeJump_mask7 _ _

theorem Laws.OpcodeRow.mov (rd rm : Reg) : Laws.OpcodeRow.Statement (.mov rd rm) :=
  encodeFields_mask5 _ _ _ _ _ _

theorem Laws.OpcodeRow.movi (rd : Reg) (imm8 : Byte) : Laws.OpcodeRow.Statement (.movi rd imm8) :=
  encodeImm8_mask5 _ _ _

theorem Laws.OpcodeRow.store (rm rn : Reg) : Laws.OpcodeRow.Statement (.store rm rn) :=
  encodeFields_mask5 _ _ _ _ _ _

theorem Laws.OpcodeRow.storei (rd : Reg) (imm8 : Byte) : Laws.OpcodeRow.Statement (.storei rd imm8) :=
  encodeImm8_mask5 _ _ _

theorem Laws.OpcodeRow.load (rd rm : Reg) : Laws.OpcodeRow.Statement (.load rd rm) :=
  encodeFields_mask5 _ _ _ _ _ _

theorem Laws.OpcodeRow.add (rd rm rn : Reg) : Laws.OpcodeRow.Statement (.add rd rm rn) :=
  encodeFields_mask5 _ _ _ _ _ _

theorem Laws.OpcodeRow.sub (rd rm rn : Reg) : Laws.OpcodeRow.Statement (.sub rd rm rn) :=
  encodeFields_mask5 _ _ _ _ _ _

theorem Laws.OpcodeRow.mul (rd rm rn : Reg) : Laws.OpcodeRow.Statement (.mul rd rm rn) :=
  encodeFields_mask5 _ _ _ _ _ _

theorem Laws.OpcodeRow.and (rd rm rn : Reg) : Laws.OpcodeRow.Statement (.and rd rm rn) :=
  encodeFields_mask5 _ _ _ _ _ _

theorem Laws.OpcodeRow.or (rd rm rn : Reg) : Laws.OpcodeRow.Statement (.or rd rm rn) :=
  encodeFields_mask5 _ _ _ _ _ _

theorem Laws.OpcodeRow.not (rd rm : Reg) : Laws.OpcodeRow.Statement (.not rd rm) :=
  encodeFields_mask5 _ _ _ _ _ _

theorem Laws.OpcodeRow.xor (rd rm rn : Reg) : Laws.OpcodeRow.Statement (.xor rd rm rn) :=
  encodeFields_mask5 _ _ _ _ _ _

theorem Laws.OpcodeRow.shr (rd rm : Reg) : Laws.OpcodeRow.Statement (.shr rd rm) :=
  encodeFields_mask5 _ _ _ _ _ _

theorem Laws.OpcodeRow.shri (rd rm : Reg) (sh3 : Nat) : Laws.OpcodeRow.Statement (.shri rd rm sh3) :=
  encodeShift_mask5 _ _ _ _

theorem Laws.OpcodeRow.shl (rd rm : Reg) : Laws.OpcodeRow.Statement (.shl rd rm) :=
  encodeFields_mask5 _ _ _ _ _ _

theorem Laws.OpcodeRow.shli (rd rm : Reg) (sh3 : Nat) : Laws.OpcodeRow.Statement (.shli rd rm sh3) :=
  encodeShift_mask5 _ _ _ _

theorem Laws.OpcodeRow.ror (rd rm : Reg) : Laws.OpcodeRow.Statement (.ror rd rm) :=
  encodeFields_mask5 _ _ _ _ _ _

theorem Laws.OpcodeRow.rol (rd rm : Reg) : Laws.OpcodeRow.Statement (.rol rd rm) :=
  encodeFields_mask5 _ _ _ _ _ _

theorem Laws.OpcodeRow.halt : Laws.OpcodeRow.Statement (.halt) :=
  rfl

end Sys2Proof
end

