-- ==== Sys2Proof/Laws/Step.lean ====
section
/-! SUPPORT. The step by run state, and the running step by the word it fetches. -/

namespace Sys2Proof.Machine

/-- A step is a clock edge with what the host presents at it. -/
theorem step_eq (s : State) : step s = clockEdge (s.inputs.headD .noAction) (s.setInputs s.inputs.tail) := rfl

/-- The host presents something other than `rst`. -/
theorem headD_ne_rst {s : State} (h : s.inputs.head? ≠ some .rst) : s.inputs.headD .noAction ≠ .rst := by
  cases hi : s.inputs with
  | nil => simp
  | cons a l => simpa [hi] using h

/-- R114: while RUNNING a step is the sequencer's. -/
theorem step_running {s : State} (hr : s.run = .running) (h : s.inputs.head? ≠ some .rst) :
    step s = sequencerStep (s.setInputs s.inputs.tail) := by
  rw [step_eq, clockEdge, if_neg (headD_ne_rst h), setInputs_run, hr]

/-- R159: while IDLE a step handles the host's transaction. -/
theorem step_idle {s : State} (hr : s.run = .idle) (h : s.inputs.head? ≠ some .rst) :
    step s = .next (idleEdge (s.inputs.headD .noAction) (s.setInputs s.inputs.tail)) := by
  rw [step_eq, clockEdge, if_neg (headD_ne_rst h), setInputs_run, hr]

/-- R143: in a terminal run state a step only passes the host's transaction by. -/
theorem step_terminal {s : State} (hr : s.run = .halted ∨ s.run = .faulted ∨ s.run = .loadFailed)
    (h : s.inputs.head? ≠ some .rst) : step s = .next (s.setInputs s.inputs.tail) := by
  rw [step_eq, clockEdge, if_neg (headD_ne_rst h), setInputs_run]
  rcases hr with hr | hr | hr <;> rw [hr]

/-- R144: `rst` outside RUNNING. -/
theorem step_reset {s : State} (hr : s.run ≠ .running) (h : s.inputs.head? = some .rst) :
    step s = .next (State.reset.setInputs s.inputs.tail) := by
  have hh : s.inputs.headD .noAction = .rst := by
    cases hi : s.inputs with
    | nil => simp [hi] at h
    | cons a l => simpa [hi] using h
  rw [step_eq, clockEdge, if_pos hh, resetEdge, setInputs_run, if_neg hr, setInputs_inputs]

/-- R116: out of range. -/
theorem sequencerStep_range {s : State} (h : 2048 ≤ s.pc.toNat) :
    sequencerStep s = .next (s.stop .halted .haltPcRange s.pc) := by
  have hn : ¬ s.pc.toNat < Config.memLimit := Nat.not_lt.2 h
  rw [sequencerStep, if_neg hn]

/-- R117: at the sentinel. -/
theorem sequencerStep_sentinel {s : State} (h : s.pc.toNat < 2048) (hw : fetchWord s = 0xFFFF#16) :
    sequencerStep s = exec .halt s := by
  have hp : s.pc.toNat < Config.memLimit := h
  have hw' : fetchWord s = Config.haltWord := hw
  rw [sequencerStep, if_pos hp, if_pos hw']

/-- R118: at any other word. -/
theorem sequencerStep_word {s : State} (h : s.pc.toNat < 2048) (hw : fetchWord s ≠ 0xFFFF#16) :
    sequencerStep s = runWord (fetchWord s) (s.setIr (fetchWord s)) := by
  have hp : s.pc.toNat < Config.memLimit := h
  have hw' : ¬ fetchWord s = Config.haltWord := hw
  rw [sequencerStep, if_pos hp, if_neg hw']

/-- R121: an illegal word. -/
theorem runWord_illegal {w : Word} {e : Illegal} (s : State) (h : decode w = .error e) :
    runWord w s = .next (s.stop .faulted .decodeFatal w) := by
  rw [runWord, h]
  rfl

/-- R119: a legal word. -/
theorem runWord_legal {w : Word} {i : Instr} (s : State) (h : decode w = .ok i) :
    runWord w s = andThen (exec i s) (fun t => .next (t.setPc (t.pc + 2#16))) := by
  rw [runWord, h]
  rfl

/-- A pop keeps everything but SP and the event output. -/
theorem pop_frame {s u : State} {v : Word} (h : pop s = .next (v, u)) :
    u.pc = s.pc ∧ u.flags = s.flags ∧ u.run = s.run ∧ u.ir = s.ir ∧ u.accepted = s.accepted ∧
      u.inputs = s.inputs ∧ u.regs = s.regs ∧ u.mem = s.mem ∧ u.memTouched = s.memTouched ∧
      u.stack = s.stack ∧ u.stackTouched = s.stackTouched ∧ u.reports = s.reports := by
  rcases pop_next h with ⟨_, _, rfl⟩ | ⟨_, j, _, _, rfl⟩ <;> simp

/-- A push keeps everything but SP, the stack and the event output. -/
theorem push_frame {s u : State} {v : Word} (h : push v s = .next u) :
    u.pc = s.pc ∧ u.flags = s.flags ∧ u.run = s.run ∧ u.ir = s.ir ∧ u.accepted = s.accepted ∧
      u.inputs = s.inputs ∧ u.regs = s.regs ∧ u.mem = s.mem ∧ u.memTouched = s.memTouched ∧
      u.reports = s.reports := by
  rcases push_next h with ⟨_, rfl⟩ | ⟨_, j, _, rfl⟩ <;> simp

/-- A checked store keeps everything but memory, its touched bits and the event output. -/
theorem checkedStore_frame (a v : Word) (s : State) :
    (checkedStore a v s).run = s.run ∧ (checkedStore a v s).ir = s.ir ∧
      (checkedStore a v s).accepted = s.accepted ∧ (checkedStore a v s).inputs = s.inputs := by
  rcases checkedStore_cases a v s with ⟨_, h⟩ | ⟨_, h⟩ <;> rw [h] <;> simp

/-- A checked load keeps everything but its register and the event output. -/
theorem checkedLoad_frame (rd : Reg) (a : Word) (s : State) :
    (checkedLoad rd a s).run = s.run ∧ (checkedLoad rd a s).ir = s.ir ∧
      (checkedLoad rd a s).accepted = s.accepted ∧ (checkedLoad rd a s).inputs = s.inputs := by
  rcases checkedLoad_cases rd a s with ⟨_, h⟩ | ⟨_, h⟩ <;> rw [h] <;> simp

/-- No instruction but HALT writes RUN, and none writes IR, the record count or the host's actions. -/
theorem exec_control {i : Instr} {s t : State} (h : exec i s = .next t) :
    (i ≠ .halt → t.run = s.run) ∧ t.ir = s.ir ∧ t.accepted = s.accepted ∧ t.inputs = s.inputs := by
  cases i <;> simp only [exec] at h
  case push =>
    have := push_frame h
    simp [this]
  case pop =>
    obtain ⟨⟨v, u⟩, h1, h2⟩ := andThen_next h
    cases h2
    have := pop_frame h1
    simp [this]
  case store =>
    cases h
    exact ⟨fun _ => (checkedStore_frame _ _ s).1, (checkedStore_frame _ _ s).2⟩
  case storei =>
    cases h
    exact ⟨fun _ => (checkedStore_frame _ _ s).1, (checkedStore_frame _ _ s).2⟩
  case load =>
    cases h
    exact ⟨fun _ => (checkedLoad_frame _ _ s).1, (checkedLoad_frame _ _ s).2⟩
  case halt =>
    cases h
    exact ⟨fun hn => absurd rfl hn, rfl, rfl, rfl⟩
  case jmp => cases h; rw [jumpIf_eq]; simp
  case jeq => cases h; rw [jumpIf_eq]; simp
  case jlt => cases h; rw [jumpIf_eq]; simp
  case jgt => cases h; rw [jumpIf_eq]; simp
  all_goals
    cases h
    exact ⟨fun _ => rfl, rfl, rfl, rfl⟩

/-- R114 to R121: all that a step of a running core can do. -/
theorem step_running_next {s t : State} (hr : s.run = .running) (h : step s = .next t) :
    (2048 ≤ s.pc.toNat ∧ t = (s.setInputs s.inputs.tail).stop .halted .haltPcRange s.pc) ∨
    (s.pc.toNat < 2048 ∧ fetchWord s = 0xFFFF#16 ∧
      t = (s.setInputs s.inputs.tail).stop .halted .haltSentinel s.pc) ∨
    (s.pc.toNat < 2048 ∧ fetchWord s ≠ 0xFFFF#16 ∧ ∃ e, decode (fetchWord s) = .error e ∧
      t = ((s.setInputs s.inputs.tail).setIr (fetchWord s)).stop .faulted .decodeFatal (fetchWord s)) ∨
    (s.pc.toNat < 2048 ∧ fetchWord s ≠ 0xFFFF#16 ∧ ∃ i u, decode (fetchWord s) = .ok i ∧
      exec i ((s.setInputs s.inputs.tail).setIr (fetchWord s)) = .next u ∧ t = u.setPc (u.pc + 2#16)) := by
  rw [step_eq] at h
  rcases clockEdge_next h with ⟨_, h1, _⟩ | ⟨_, h1, _⟩ | ⟨_, _, h1⟩ | ⟨_, _, h1, _⟩
  · exact absurd hr h1
  · rw [setInputs_run, hr] at h1
    cases h1
  · rcases sequencerStep_next h1 with h1 | h1 | ⟨h2, h3, h4⟩
    · exact .inl h1
    · exact .inr (.inl h1)
    · rcases runWord_next h4 with ⟨e, he, ht⟩ | ⟨i, u, hi, hu, ht⟩
      · exact .inr (.inr (.inl ⟨h2, h3, e, he, ht⟩))
      · exact .inr (.inr (.inr ⟨h2, h3, i, u, hi, hu, ht⟩))
  · exact absurd hr h1

/-- A run of no steps. -/
theorem core_run_zero (s : State) : core.run 0 s = (.next s : Host.Outcome State Fault Refusal) := rfl

/-- A run of any machine whose first step answers `t` goes on from `t`. -/
theorem run_succ_of_next (M : Host.Core) {n : Nat} {s t : M.State} (h : M.step s = .next t) :
    M.run (n + 1) s = M.run n t := by
  simp only [Host.Core.run, h]

/-- A run whose first step answers `t` goes on from `t`. -/
theorem core_run_succ {n : Nat} {s t : State} (h : step s = .next t) :
    (core.run (n + 1) s : Host.Outcome State Fault Refusal) = core.run n t :=
  run_succ_of_next core h

end Sys2Proof.Machine
end

