-- ==== Sys2Proof/Tests/Slice0.lean ====
section
/-! SUPPORT. The model's own tests: well-formedness, decoding of words written out from the spec's
encodings, one step per instruction on the vectors of spec/95_test_vectors.md and the rules' examples, the
load interface, and for each obligation with hypotheses a state or term that meets them. -/

namespace Sys2Proof.Machine.Tests

/-- A running state whose next step runs `w`. -/
def ready (w : Nat) : State := State.reset.withFetchWord 16 w

/-- The state a step answers, or the state itself where it answers none. -/
def after (s : State) : State :=
  match step s with
  | .next t => t
  | .fault _ => s
  | .refused _ => s

/-- Z, S, C, V as the test vectors write them. -/
def zscv (s : State) : List Bool := [s.flags.zero, s.flags.sign, s.flags.carry, s.flags.overflow]

/-! ## Well-formedness: one ill-formed term for each check -/

theorem test_disp_too_large : ¬ WellFormed (.jmp 256) := by decide
theorem test_disp_too_small : ¬ WellFormed (.jlt (-257)) := by decide
theorem test_jeq_disp_too_large : ¬ WellFormed (.jeq 1000) := by decide
theorem test_jgt_disp_too_small : ¬ WellFormed (.jgt (-1000)) := by decide
theorem test_shri_count_too_large : ¬ WellFormed (.shri 0 0 8) := by decide
theorem test_shli_count_too_large : ¬ WellFormed (.shli 7 7 8) := by decide
theorem test_bounds_are_well_formed :
    WellFormed (.jmp (-256)) ∧ WellFormed (.jgt 255) ∧ WellFormed (.shri 1 2 7) ∧ WellFormed (.shli 1 2 0) := by
  decide

/-! ## Decoding: words written out from R60, V12 and the rules' examples -/

theorem test_decode_nop : decode 0b0000_0_000_000_000_00#16 = .ok .nop := by decide
theorem test_decode_push : decode 0b0000_0_111_111_111_01#16 = .ok (.push 7) := by decide
theorem test_decode_pop : decode 0b0000_0_100_000_000_10#16 = .ok (.pop 4) := by decide
theorem test_decode_cmp : decode 0b0000_0_000_001_010_11#16 = .ok (.cmp 1 2) := by decide
theorem test_decode_jmp : decode 0b0000_1_111111100_00#16 = .ok (.jmp (-4)) := by decide
theorem test_decode_jeq : decode 0b0000_1_000000110_01#16 = .ok (.jeq 6) := by decide
theorem test_decode_jlt : decode 0b0000_1_000001000_10#16 = .ok (.jlt 8) := by decide
theorem test_decode_jgt : decode 0b0000_1_100000000_11#16 = .ok (.jgt (-256)) := by decide
theorem test_decode_mov : decode 0b0001_0_010_001_000_00#16 = .ok (.mov 2 1) := by decide
theorem test_decode_movi : decode 0b0001_1_101_11111111#16 = .ok (.movi 5 0xFF#8) := by decide
theorem test_decode_store : decode 0b0010_0_000_001_010_00#16 = .ok (.store 1 2) := by decide
theorem test_decode_storei : decode 0b0010_1_011_01111111#16 = .ok (.storei 3 0x7F#8) := by decide
theorem test_decode_load : decode 0b0011_0_100_001_000_00#16 = .ok (.load 4 1) := by decide
theorem test_decode_add : decode 0b0100_0_010_010_001_00#16 = .ok (.add 2 2 1) := by decide
theorem test_decode_sub : decode 0b0101_0_011_001_010_00#16 = .ok (.sub 3 1 2) := by decide
theorem test_decode_mul : decode 0b0110_0_001_010_011_00#16 = .ok (.mul 1 2 3) := by decide
theorem test_decode_and : decode 0b0111_0_000_001_010_00#16 = .ok (.and 0 1 2) := by decide
theorem test_decode_or : decode 0b1000_0_000_001_010_11#16 = .ok (.or 0 1 2) := by decide
theorem test_decode_not : decode 0b1001_0_001_000_111_11#16 = .ok (.not 1 0) := by decide
theorem test_decode_xor : decode 0b1010_0_010_010_010_00#16 = .ok (.xor 2 2 2) := by decide
theorem test_decode_shr : decode 0b1011_0_001_010_000_00#16 = .ok (.shr 1 2) := by decide
theorem test_decode_shri : decode 0b1011_1_001_010_00_011#16 = .ok (.shri 1 2 3) := by decide
theorem test_decode_shl : decode 0b1100_0_001_010_000_00#16 = .ok (.shl 1 2) := by decide
theorem test_decode_shli : decode 0b1100_1_111_111_11_111#16 = .ok (.shli 7 7 7) := by decide
theorem test_decode_ror : decode 0b1101_0_001_010_000_00#16 = .ok (.ror 1 2) := by decide
theorem test_decode_rol : decode 0b1110_0_001_010_000_00#16 = .ok (.rol 1 2) := by decide
theorem test_decode_halt : decode 0b1111_1_111_111_111_11#16 = .ok .halt := by decide
theorem test_decode_illegal :
    decode 0x0100#16 = .error .op0SelectorZero ∧ decode 0x3FFF#16 = .error .op3Immediate ∧
    decode 0xA800#16 = .error .noImmediateForm ∧ decode 0xE800#16 = .error .noImmediateForm ∧
    decode 0xF000#16 = .error .opFReserved := by decide

/-- The assembler's words of the programs P1 and P3 (R73). -/
theorem test_encode :
    encode (.push 3) = 0x000D#16 ∧ encode (.jmp (-6)) = 0x0FE8#16 ∧ encode (.cmp 4 3) = 0x008F#16 ∧
    encode (.movi 2 3#8) = 0x1A03#16 ∧ encode (.shli 7 7 7) = 0xCFE7#16 ∧ encode (.sub 1 1 2) = 0x5128#16 := by
  decide

/-! ## Opcode 0x0 -/

/-- V13: REPORT(PC), IR = 0, PC + 2; R142: the report's IR is 0. -/
theorem test_nop : (after (ready 0x0000)).events = [⟨.report, 0#16⟩] ∧ (after (ready 0x0000)).pc = 2#16 ∧
    (after (ready 0x0000)).reports.map Report.ir = [0#16] := by decide

/-- R77's example. -/
theorem test_push : (after ((ready 0x000D).setReg 3 0xBEEF#16)).sp = 0x81FE#16 ∧
    (after ((ready 0x000D).setReg 3 0xBEEF#16)).stack.get 0 = 0xBEEF#16 := by decide

/-- V9: at SP = 0x8000 a push emits STACK_OVF(0x8000) and leaves SP. -/
theorem test_push_full : (after ((ready 0x000D).setSp 0x8000#16)).events = [⟨.stackOvf, 0x8000#16⟩] ∧
    (after ((ready 0x000D).setSp 0x8000#16)).sp = 0x8000#16 := by decide

/-- R78's example. -/
theorem test_pop : (after (((ready 0x0402).setSp 0x81FE#16).storeStack 0 0xBEEF#16)).reg 4 = 0xBEEF#16 ∧
    (after (((ready 0x0402).setSp 0x81FE#16).storeStack 0 0xBEEF#16)).sp = 0x8200#16 := by decide

/-- S4: a pop on an empty stack writes 0 to rd. -/
theorem test_pop_empty : (after ((ready 0x0402).setReg 4 0x1234#16)).reg 4 = 0#16 ∧
    (after ((ready 0x0402).setReg 4 0x1234#16)).events = [⟨.stackUnf, 0x8200#16⟩] := by decide

/-- V2: 0x8000 against 0x0001. -/
theorem test_cmp : zscv (after (((ready 0x002B).setReg 1 0x8000#16).setReg 2 1#16)) = [false, false, true, true] := by
  decide

/-- V7: JMP −2 at 0 wraps to 0xFFFE, and S7: JMP 0 returns to 0. -/
theorem test_jmp : (after (ready 0x0FF8)).pc = 0xFFFE#16 ∧ (after (ready 0x0800)).pc = 0#16 := by decide

/-- V8, with Z = 1. -/
theorem test_jeq : (after ((ready 0x0811).setFlags ⟨true, false, true, false⟩)).pc = 4#16 ∧
    (after (ready 0x0811)).pc = 2#16 := by decide

/-- V8, with S = 1 and with Z = S = 1. -/
theorem test_jlt : (after ((ready 0x081A).setFlags ⟨false, true, false, false⟩)).pc = 6#16 ∧
    (after ((ready 0x081A).setFlags ⟨true, true, false, false⟩)).pc = 2#16 := by decide

/-- V8: taken with all flags 0, not with Z = 1. -/
theorem test_jgt : (after (ready 0x0813)).pc = 4#16 ∧
    (after ((ready 0x0813).setFlags ⟨true, false, true, false⟩)).pc = 2#16 := by decide

/-! ## Moves and memory -/

/-- V11. -/
theorem test_mov : (after ((ready 0x1220).setReg 1 0x1234#16)).reg 2 = 0x1234#16 := by decide
/-- V11: the upper byte is cleared. -/
theorem test_movi : (after ((ready 0x1A03).setReg 2 0xFFFF#16)).reg 2 = 3#16 := by decide
/-- R88's example: memory[0x80] = 0xABCD. -/
theorem test_store :
    (after (((ready 0x2028).setReg 1 0x0100#16).setReg 2 0xABCD#16)).mem.readWord 0x0100#16 = 0xABCD#16 := by decide
/-- R88's example: an odd address. -/
theorem test_store_odd :
    (after (((ready 0x2028).setReg 1 0x0101#16).setReg 2 0xABCD#16)).events = [⟨.memWarn, 0x0101#16⟩] := by decide
/-- V11: memory[8] = 0x00FF, never 0xFFFF. -/
theorem test_storei : (after ((ready 0x2BFF).setReg 3 0x0010#16)).mem.readWord 0x0010#16 = 0x00FF#16 ∧
    (after ((ready 0x2BFF).setReg 3 0x0010#16)).memTouched.getLsbD 8 = true := by decide +kernel
/-- R90: a cell never loaded nor stored reads 0xFFFF. -/
theorem test_load : (after ((ready 0x3420).setReg 1 0x0100#16)).reg 4 = 0xFFFF#16 := by decide
/-- R90's example: at 0x0800 rd keeps its value. -/
theorem test_load_range :
    (after (((ready 0x3420).setReg 1 0x0800#16).setReg 4 7#16)).reg 4 = 7#16 ∧
    (after (((ready 0x3420).setReg 1 0x0800#16).setReg 4 7#16)).events = [⟨.memWarn, 0x0800#16⟩] := by decide

/-! ## Arithmetic, logic, shifts -/

/-- R99's example. -/
theorem test_add : (after (((ready 0x4244).setReg 2 3#16).setReg 1 2#16)).reg 2 = 5#16 := by decide
/-- V1: 0x8000 + 0x8000. -/
theorem test_add_flags : zscv (after (((ready 0x4244).setReg 2 0x8000#16).setReg 1 0x8000#16)) =
    [true, false, true, true] := by decide
/-- V2: 3 − 5. -/
theorem test_sub : (after (((ready 0x5328).setReg 1 3#16).setReg 2 5#16)).reg 3 = 0xFFFE#16 ∧
    zscv (after (((ready 0x5328).setReg 1 3#16).setReg 2 5#16)) = [false, true, false, false] := by decide
/-- V3: 0xFFFF × 0xFFFF. -/
theorem test_mul : (after (((ready 0x614C).setReg 2 0xFFFF#16).setReg 3 0xFFFF#16)).reg 1 = 1#16 ∧
    zscv (after (((ready 0x614C).setReg 2 0xFFFF#16).setReg 3 0xFFFF#16)) = [false, false, true, true] := by decide
/-- R102's example. -/
theorem test_and : (after (((ready 0x7028).setReg 1 0xF0F0#16).setReg 2 0xFF00#16)).reg 0 = 0xF000#16 := by decide
/-- V4. -/
theorem test_or : (after (((ready 0x8028).setReg 1 0xF0F0#16).setReg 2 0xFF00#16)).reg 0 = 0xFFF0#16 := by decide
/-- V4: NOT R2, R2. -/
theorem test_not : (after ((ready 0x9240).setReg 2 0x1234#16)).reg 2 = 0xEDCB#16 := by decide
/-- V4: XOR R2, R2, R2. -/
theorem test_xor : (after ((ready 0xA248).setReg 2 0x1234#16)).reg 2 = 0#16 ∧
    zscv (after ((ready 0xA248).setReg 2 0x1234#16)) = [true, false, false, false] := by decide
/-- V5. -/
theorem test_shr : (after ((ready 0xB140).setReg 2 0x8001#16)).reg 1 = 0x4000#16 := by decide
/-- V6. -/
theorem test_shri : (after ((ready 0xB947).setReg 2 0x8421#16)).reg 1 = 0x0108#16 := by decide
/-- V5. -/
theorem test_shl : (after ((ready 0xC140).setReg 2 0x8001#16)).reg 1 = 0x0002#16 := by decide
/-- V6. -/
theorem test_shli : (after ((ready 0xC945).setReg 2 0x8421#16)).reg 1 = 0x8420#16 := by decide
/-- V5. -/
theorem test_ror : (after ((ready 0xD140).setReg 2 0x8001#16)).reg 1 = 0xC000#16 := by decide
/-- V5. -/
theorem test_rol : (after ((ready 0xE140).setReg 2 0x8001#16)).reg 1 = 0x0003#16 := by decide

/-! ## The sequencer and the load interface -/

/-- V13: the sentinel as the first word fetched. -/
theorem test_halt : (after (ready 0xFFFF)).run = .halted ∧ (after (ready 0xFFFF)).pc = 0#16 ∧
    (after (ready 0xFFFF)).ir = 0#16 ∧ (after (ready 0xFFFF)).events = [⟨.haltSentinel, 0#16⟩] := by decide

/-- S8: an illegal word. -/
theorem test_decode_fatal : (after (ready 0x3800)).run = .faulted ∧ (after (ready 0x3800)).pc = 0#16 ∧
    (after (ready 0x3800)).ir = 0x3800#16 ∧ (after (ready 0x3800)).events = [⟨.decodeFatal, 0x3800#16⟩] := by decide

/-- V13: PC = 0xFFFE. -/
theorem test_pc_range : (after ((ready 0x0000).setPc 0xFFFE#16)).run = .halted ∧
    (after ((ready 0x0000).setPc 0xFFFE#16)).events = [⟨.haltPcRange, 0xFFFE#16⟩] := by decide

/-- V14: `Start` without a record. -/
theorem test_load_empty : (after (State.reset.setInputs [.start])).run = .loadFailed ∧
    (after (State.reset.setInputs [.start])).events = [⟨.loadEmpty, 0#16⟩] := by decide

/-- S5: an odd record address. -/
theorem test_load_bad_address : (after (State.reset.setInputs [.loadRecord 0x0401#16 1#16])).run = .loadFailed ∧
    (after (State.reset.setInputs [.loadRecord 0x0401#16 1#16])).events = [⟨.loadBadAddr, 0x0401#16⟩] := by decide

/-- S5: a valid record, counted and touched. -/
theorem test_load_record :
    (after (State.reset.setInputs [.loadRecord 0#16 0x1234#16])).mem.readWord 0#16 = 0x1234#16 ∧
    (after (State.reset.setInputs [.loadRecord 0#16 0x1234#16])).accepted = 1 ∧
    (after (State.reset.setInputs [.loadRecord 0#16 0x1234#16])).memTouched.getLsbD 0 = true := by decide +kernel

/-- R126: the event output of a NOP's step. -/
theorem test_event_output : eventOutput (ready 0x0000) (after (ready 0x0000)) = (1#1, 1#4, 0#16) := by decide

/-- R153: `rst` while RUNNING is refused; the refusal is named. -/
theorem test_reset_while_running :
    (match step ((ready 0x0000).setInputs [.rst]) with
      | .refused r => r = .resetWhileRunning
      | .next _ => False
      | .fault _ => False) := rfl

/-- R22: a PUSH at an SP that names no cell, which no run from reset reaches. -/
theorem test_no_stack_cell :
    (match exec (.push 0) (State.reset.setSp 0x9000#16) with
      | .fault f => f = .noStackCell 0x8FFE#16
      | .next _ => False
      | .refused _ => False) := rfl

/-! ## Witnesses: for each obligation with hypotheses, terms and states that meet them, at the bounds -/

/-- A running core at PC 0 over the word `w`, with nothing presented: the hypotheses of the step statements. -/
theorem ready_runs (w : Nat) : (ready w).run = .running ∧ (ready w).inputs = [] ∧ (ready w).pc.toNat < 2048 := by
  refine ⟨rfl, rfl, ?_⟩
  show (0 : Nat) < 2048
  decide

/-- DecodeEncode: the bounds of both checks. -/
theorem witness_DecodeEncode : WellFormed (.jmp 255) ∧ WellFormed (.jeq (-256)) ∧ WellFormed (.shli 7 0 7) := by decide

/-- EncodeDecode: a word with bits its form does not read. -/
theorem witness_EncodeDecode : decode 0x37FF#16 = .ok (.load 7 7) := by decide

/-- UnreadBitsIgnored: V12's 0x0001 and 0x0701. -/
theorem witness_UnreadBitsIgnored : decode 0x0001#16 = .ok (.push 0) ∧
    0x0701#16 &&& readBits (.push 0) = 0x0001#16 &&& readBits (.push 0) ∧ (0x0701#16 : Word) ≠ 0x0001#16 := by decide

/-- NopRule: the illegal words' clause at its bounds, and the step clause. -/
theorem witness_NopRule_illegal : (0x0004#16).toNat / 2048 = 0 ∧ (0x0004#16).toNat % 4 = 0 ∧ (0x0004#16 : Word) ≠ 0x0000#16 ∧
    (0x07FC#16).toNat / 2048 = 0 ∧ (0x07FC#16).toNat % 4 = 0 := by decide
theorem witness_NopRule_step : fetchWord (ready 0x0000) = 0x0000#16 := by decide

/-- The step clauses of NopRule, NopReport, PcRangeStop, SentinelStop and FatalStop with a transaction
presented at the edge: `Start`, or a record at the PC itself, is not `rst`, and leaves the core running over its word. -/
theorem witness_transaction_presented (w : Nat) :
    ((ready w).setInputs [.start]).inputs.head? ≠ some .rst ∧
    ((ready w).setInputs [.loadRecord 0#16 0#16]).inputs.head? ≠ some .rst ∧
    ((ready w).setInputs [.start]).run = .running ∧
    fetchWord ((ready w).setInputs [.start]) = fetchWord (ready w) := by
  refine ⟨?_, ?_, rfl, rfl⟩ <;> simp

/-- The word clauses of the instruction rules: the last word of each form. -/
theorem witness_opcode0_words : 0x07FD#16 &&& 0xF803#16 = 0x0001#16 ∧ 0x07FE#16 &&& 0xF803#16 = 0x0002#16 ∧
    0x07FF#16 &&& 0xF803#16 = 0x0003#16 ∧ 0x0FFC#16 &&& 0xF803#16 = 0x0800#16 ∧ 0x0FFD#16 &&& 0xF803#16 = 0x0801#16 ∧
    0x0FFE#16 &&& 0xF803#16 = 0x0802#16 ∧ 0x0FFF#16 &&& 0xF803#16 = 0x0803#16 := by decide
theorem witness_move_words : 0x17FF#16 &&& 0xF800#16 = 0x1000#16 ∧ 0x1FFF#16 &&& 0xF800#16 = 0x1800#16 ∧
    0x27FF#16 &&& 0xF800#16 = 0x2000#16 ∧ 0x2FFF#16 &&& 0xF800#16 = 0x2800#16 ∧ 0x37FF#16 &&& 0xF800#16 = 0x3000#16 ∧
    0x3FFF#16 &&& 0xF800#16 = 0x3800#16 := by decide
theorem witness_alu_words : 0x47FF#16 &&& 0xF800#16 = 0x4000#16 ∧ 0x57FF#16 &&& 0xF800#16 = 0x5000#16 ∧
    0x67FF#16 &&& 0xF800#16 = 0x6000#16 ∧ 0x77FF#16 &&& 0xF800#16 = 0x7000#16 ∧ 0x87FF#16 &&& 0xF800#16 = 0x8000#16 ∧
    0x97FF#16 &&& 0xF800#16 = 0x9000#16 ∧ 0xA7FF#16 &&& 0xF800#16 = 0xA000#16 := by decide
theorem witness_shift_words : 0xB7FF#16 &&& 0xF800#16 = 0xB000#16 ∧ 0xBFFF#16 &&& 0xF800#16 = 0xB800#16 ∧
    0xC7FF#16 &&& 0xF800#16 = 0xC000#16 ∧ 0xCFFF#16 &&& 0xF800#16 = 0xC800#16 ∧ 0xD7FF#16 &&& 0xF800#16 = 0xD000#16 ∧
    0xE7FF#16 &&& 0xF800#16 = 0xE000#16 := by decide

/-- PushRule, StackLaws: the depths 0 and 255 of the room clause, and the full stack. -/
theorem witness_PushRule_room : SpLegal State.reset ∧ State.reset.sp.toNat ≠ 0x8000 ∧
    SpLegal (State.reset.setSp 0x8002#16) ∧ (State.reset.setSp 0x8002#16).sp.toNat ≠ 0x8000 := by
  unfold SpLegal
  decide
theorem witness_PushRule_full : (State.reset.setSp 0x8000#16).sp.toNat = 0x8000 := by decide

/-- PopRule, StackLaws: the depths 256 and 1 of the cell clause, and the empty stack. -/
theorem witness_PopRule_cell : SpLegal (State.reset.setSp 0x8000#16) ∧ (State.reset.setSp 0x8000#16).sp.toNat ≠ 0x8200 ∧
    SpLegal (State.reset.setSp 0x81FE#16) ∧ (State.reset.setSp 0x81FE#16).sp.toNat ≠ 0x8200 := by
  unfold SpLegal
  decide
theorem witness_PopRule_empty : 0x8200 ≤ State.reset.sp.toNat ∧ State.reset.sp.toNat = 0x8200 := by decide

/-- ConditionalJumpRules: each condition met, and each not met. -/
theorem witness_ConditionalJumpRules :
    ((State.reset.setFlags ⟨true, false, false, false⟩).flags.zero = true ∧
      (State.reset.setFlags ⟨true, false, false, false⟩).flags.sign = false) ∧
    ((State.reset.setFlags ⟨false, true, false, false⟩).flags.sign = true ∧
      (State.reset.setFlags ⟨false, true, false, false⟩).flags.zero = false) ∧
    (State.reset.flags.zero = false ∧ State.reset.flags.sign = false) := by decide

/-- StoreRule, LoadRule, LoadAfterStore: the last valid address, and the first two invalid ones. -/
theorem witness_StoreRule_valid : (State.reset.setReg 1 0x07FE#16).mem.wf = true ∧
    ((State.reset.setReg 1 0x07FE#16).reg 1).toNat % 2 = 0 ∧ ((State.reset.setReg 1 0x07FE#16).reg 1).toNat < 0x0800 := by
  decide
theorem witness_StoreRule_invalid : ((State.reset.setReg 1 0x07FF#16).reg 1).toNat % 2 = 1 ∧
    0x0800 ≤ ((State.reset.setReg 1 0x0800#16).reg 1).toNat := by decide

/-- StoreiRule: an address register other than the first, at the bounds. -/
theorem witness_StoreiRule : (State.reset.setReg 7 0x0000#16).mem.wf = true ∧
    ((State.reset.setReg 7 0x0000#16).reg 7).toNat % 2 = 0 ∧ ((State.reset.setReg 7 0x0000#16).reg 7).toNat < 0x0800 ∧
    0x0800 ≤ ((State.reset.setReg 7 0xFFFE#16).reg 7).toNat := by decide

/-- HaltRule: words with op = 0xF other than the sentinel. -/
theorem witness_HaltRule : (0xF000#16).toNat / 4096 = 0xF ∧ (0xFFFE#16).toNat / 4096 = 0xF ∧ (0xFFFE#16 : Word) ≠ 0xFFFF#16 := by
  decide

/-- StepRunsDecodedInstruction, NextPc: an instruction, a taken jump, and the sentinel. -/
theorem witness_StepRunsDecodedInstruction : decode (fetchWord (ready 0x4244)) = .ok (.add 2 2 1) ∧
    decode (fetchWord (ready 0x0811)) = .ok (.jeq 4) ∧ decode (fetchWord (ready 0xFFFF)) = .ok .halt := by decide
theorem witness_NextPc : decode (fetchWord (ready 0x080C)) = .ok (.jmp 3) ∧ (ready 0x080C).inputs.head? ≠ some .rst ∧
    ∃ u, exec (.jmp 3) { ready 0x080C with ir := fetchWord (ready 0x080C), inputs := (ready 0x080C).inputs.tail } = .next u :=
  ⟨by decide, by decide, _, rfl⟩
theorem witness_NextPc_plain : decode (fetchWord (ready 0x1220)) = .ok (.mov 2 1) ∧ (ready 0x1220).inputs.head? ≠ some .rst ∧
    ∃ u, exec (.mov 2 1) { ready 0x1220 with ir := fetchWord (ready 0x1220), inputs := (ready 0x1220).inputs.tail } = .next u :=
  ⟨by decide, by decide, _, rfl⟩

/-- PcRangeStop, LeavesRunning: the first PC out of range. -/
theorem witness_PcRangeStop : ((ready 0x0000).setPc 0x0800#16).run = .running ∧ ((ready 0x0000).setPc 0x0800#16).inputs.head? ≠ some .rst ∧
    2048 ≤ ((ready 0x0000).setPc 0x0800#16).pc.toNat := by decide
theorem witness_LeavesRunning : ∃ t, step ((ready 0x0000).setPc 0x0800#16) = .next t := ⟨_, rfl⟩

/-- SentinelStop and FatalStop. -/
theorem witness_SentinelStop : fetchWord (ready 0xFFFF) = 0xFFFF#16 := by decide
theorem witness_FatalStop : decode (fetchWord (ready 0xF000)) = .error .opFReserved := by decide

/-- OddFetch: PC = 1 over a word that is no jump. -/
theorem witness_OddFetch : ((ready 0x1A22).setPc 1#16).pc.toNat % 2 = 1 ∧
    decode (fetchWord ((ready 0x1A22).setPc 1#16)) = .ok (.movi 2 0x22#8) ∧
    takenJump (.movi 2 0x22#8) ((ready 0x1A22).setPc 1#16).flags = none := by decide
theorem witness_OddFetch_step : ∃ t, step ((ready 0x1A22).setPc 1#16) = .next t := ⟨_, rfl⟩

/-- RegisterFrame, FlagFrame (both clauses), StackFrame: instructions that answer a next state. -/
theorem witness_RegisterFrame : ∃ t, exec (.add 2 2 1) State.reset = .next t ∧ destOf (.add 2 2 1) ≠ some 1 :=
  ⟨_, rfl, by decide⟩
theorem witness_FlagFrame : (∃ t, exec (.cmp 1 2) State.reset = .next t) ∧ writesFlags (.cmp 1 2) = true ∧
    (∃ t, exec (.load 1 2) State.reset = .next t) ∧ writesFlags (.load 1 2) = false :=
  ⟨⟨_, rfl⟩, rfl, ⟨_, rfl⟩, rfl⟩
theorem witness_StackFrame : ∃ t, exec (.mov 1 2) (State.reset.setSp 0x8000#16) = .next t := ⟨_, rfl⟩

/-- MemoryFrame: a store target at a valid and at an invalid address, and no target. -/
theorem witness_MemoryFrame : (State.reset.setReg 1 0x07FE#16).mem.wf = true ∧
    storeTarget (.store 1 2) (State.reset.setReg 1 0x07FE#16) = some 0x07FE#16 ∧
    storeTarget (.store 1 2) (State.reset.setReg 1 0x07FF#16) = some 0x07FF#16 ∧
    storeTarget (.load 1 2) State.reset = none := by decide
theorem witness_MemoryFrame_exec : (∃ t, exec (.store 1 2) (State.reset.setReg 1 0x07FE#16) = .next t) ∧
    (∃ t, exec (.store 1 2) (State.reset.setReg 1 0x07FF#16) = .next t) ∧ ∃ t, exec (.load 1 2) State.reset = .next t :=
  ⟨⟨_, rfl⟩, ⟨_, rfl⟩, ⟨_, rfl⟩⟩

/-- OneConditionalJump: an instruction that writes the flags. -/
theorem witness_OneConditionalJump : writesFlags (.sub 1 1 2) = true ∧ ∃ t, exec (.sub 1 1 2) State.reset = .next t :=
  ⟨rfl, _, rfl⟩

/-- StackLaws: a step from a state with a legal SP. -/
theorem witness_StackLaws : SpLegal (ready 0x0001) ∧ ∃ t, step (ready 0x0001) = .next t :=
  ⟨by unfold SpLegal; decide, _, rfl⟩

/-- LoadAfterStore: two registers with the same valid address. -/
theorem witness_LoadAfterStore : (((State.reset.setReg 1 0x07FE#16).setReg 2 0x07FE#16).reg 2) =
    ((State.reset.setReg 1 0x07FE#16).setReg 2 0x07FE#16).reg 1 := by decide

/-- StoreThenFetch: a STORE to the very next word. -/
theorem witness_StoreThenFetch : ((ready 0x2028).setReg 1 0x0002#16).mem.wf = true ∧
    decode (fetchWord ((ready 0x2028).setReg 1 0x0002#16)) = .ok (.store 1 2) ∧
    (((ready 0x2028).setReg 1 0x0002#16).reg 1).toNat < 0x0800 ∧
    (((ready 0x2028).setReg 1 0x0002#16).pc + 2#16).toNat / 2 = (((ready 0x2028).setReg 1 0x0002#16).reg 1).toNat / 2 := by
  decide

/-- OneEventPerStep: a step that emits and one that does not. -/
theorem witness_OneEventPerStep : (ready 0x0000).inputs.head? ≠ some .rst ∧ (∃ t, step (ready 0x0000) = .next t) ∧
    ∃ t, step State.reset = .next t :=
  ⟨by decide, ⟨_, rfl⟩, ⟨_, rfl⟩⟩

/-- OutputPorts: a step that emits one event, and a pair of states with the same events. -/
theorem witness_OutputPorts : (after (ready 0x0000)).events = (ready 0x0000).events ++ [⟨.report, 0#16⟩] ∧
    (after (ready 0x1220)).events = (ready 0x1220).events := by decide

/-- ResetState: `rst` in a terminal state. -/
theorem witness_ResetState : ((State.reset.setRun .halted).setInputs [.rst]).run ≠ .running ∧
    ((State.reset.setRun .halted).setInputs [.rst]).inputs = [.rst] := by decide

/-- LoadRecordRule: a record at the last valid address, and at the first two invalid ones. -/
theorem witness_LoadRecordRule : (State.reset.setInputs [.loadRecord 0x07FE#16 1#16]).run = .idle ∧
    (State.reset.setInputs [.loadRecord 0x07FE#16 1#16]).mem.wf = true ∧
    (0x07FE#16).toNat % 2 = 0 ∧ (0x07FE#16).toNat < 0x0800 ∧ (0x07FF#16).toNat % 2 = 1 ∧ 0x0800 ≤ (0x0800#16).toNat := by
  decide

/-- StartRule: with and without an accepted record. -/
theorem witness_StartRule : (State.reset.countRecord.setInputs [.start]).accepted ≠ 0 ∧
    (State.reset.countRecord.setInputs [.start]).run = .idle ∧ (State.reset.setInputs [.start]).accepted = 0 := by decide

/-- StepsOnlyWhileRunning: IDLE without a transaction, at the list's end and before its next entry, and each
terminal state. -/
theorem witness_StepsOnlyWhileRunning : State.reset.run ≠ .running ∧ State.reset.inputs = [] ∧
    (State.reset.setInputs [.noAction, .start]).run ≠ .running ∧
    (State.reset.setInputs [.noAction, .start]).inputs = .noAction :: [.start] ∧
    (State.reset.setRun .halted).run = .halted ∧ (State.reset.setRun .faulted).run = .faulted ∧
    (State.reset.setRun .loadFailed).run = .loadFailed := by decide

/-- RunningIgnoresHost: `Start` presented to a running core. -/
theorem witness_RunningIgnoresHost : (ready 0x0000).run = .running ∧ HostAction.start ≠ .rst := by decide

/-- LaunchPremises: records at the bounds of memory. -/
theorem witness_LaunchPremises : [((0x0000#16 : Word), (0x1234#16 : Word)), (0x07FE#16, 0xFFFF#16)] ≠ [] ∧
    ∀ p ∈ [((0x0000#16 : Word), (0x1234#16 : Word)), (0x07FE#16, 0xFFFF#16)], p.1.toNat % 2 = 0 ∧ p.1.toNat < 0x0800 := by
  simp

/-- BadRecordFailsLoad: V14's records. -/
theorem witness_BadRecordFailsLoad :
    (∀ p ∈ [((0#16 : Word), (0x1901#16 : Word)), (0#16, 0x1902#16)], p.1.toNat % 2 = 0 ∧ p.1.toNat < 0x0800) ∧
    (0x07FF#16).toNat % 2 = 1 ∧ 0x0800 ≤ (0x0800#16).toNat := by simp

/-- InvStep, StepProgress: a running core with one pushed cell, one step before a PUSH. -/
theorem witness_InvStep :
    Inv (((State.reset.setSp 0x81FE#16).storeStack 0 0xBEEF#16).setRun .running) ∧
    HostBehaves (((State.reset.setSp 0x81FE#16).storeStack 0 0xBEEF#16).setRun .running) ∧
    ∃ t, step (((State.reset.setSp 0x81FE#16).storeStack 0 0xBEEF#16).setRun .running) = .next t := by
  refine ⟨⟨rfl, ?_, by decide, by decide, fun _ _ _ => rfl, ?_, ?_⟩, fun _ => by decide, _, rfl⟩
  · unfold SpLegal
    decide
  · intro j hj
    have hn : ¬ (touch State.reset.stackTouched (0 : Fin 256).val).getLsbD j.val = true := by simpa using hj
    rw [touch_getLsbD_iff _ (by decide)] at hn
    simp only [setRun_stack]
    rw [storeStack_get, if_neg (fun e => hn (.inr (by rw [e])))]
    simp [State.reset]
  · intro j hj
    have h1 : stackDepth 0x81FE#16 = 1 := by decide
    simp only [setRun_sp, storeStack_sp, setSp_sp, h1] at hj
    have h0 : j = 0 := by omega
    subst h0
    simp only [setRun_stackTouched, storeStack_stackTouched]
    rw [touch_getLsbD_iff _ (by decide)]
    exact .inr rfl

/-- ReportingStateUnobservable: states that differ in IR, C, V, the touched bits and the events. -/
theorem witness_ReportingStateUnobservable :
    ProgramEq (ready 0x4244)
      ((((ready 0x4244).setIr 7#16).setFlags ⟨false, false, true, true⟩).emit .report 0#16) :=
  ⟨rfl, rfl, rfl, rfl, rfl, rfl, rfl, rfl, rfl, rfl⟩

/-- MemoryCanonical: a memory in canonical form that reads alike however it was written. -/
theorem witness_MemoryCanonical :
    ((Memory.mk []).writeByte 4 7#8).wf = true ∧ ((((Memory.mk []).writeByte 4 7#8).writeByte 6 1#8).writeByte 6 0xFF#8).wf = true := by
  decide

end Sys2Proof.Machine.Tests
end

section
/-! Settles O9 (CMP). First the subtract rules of the flag unit and the frame of a flag write, each said once;
then what CMP answers; then the obligation, read off from these. -/

namespace Sys2Proof.Machine

/-- R9, R93: the truncated difference as a number. -/
theorem word_sub_toNat (a b : Word) : (a - b).toNat = (a.toNat + 65536 - b.toNat) % 65536 := by
  rw [BitVec.toNat_sub]
  have := b.isLt
  congr 1
  omega

/-- R93: the truncated difference vanishes only between equal operands. -/
theorem word_sub_toNat_eq_zero (a b : Word) : (a - b).toNat = 0 ↔ a.toNat = b.toNat := by
  rw [word_sub_toNat]
  have := a.isLt
  have := b.isLt
  omega

/-- R95: Carry after a subtraction means no borrow. -/
theorem computeFlags_subtract_carry (r a b : Word) :
    (computeFlags r a b .subtract).carry = true ↔ b.toNat ≤ a.toNat :=
  decide_eq_true_iff

/-- R95: Overflow after a subtraction, by the sign bits. -/
theorem computeFlags_subtract_overflow (r a b : Word) :
    (computeFlags r a b .subtract).overflow = true ↔ a.msb ≠ b.msb ∧ r.msb ≠ a.msb := by
  simp only [computeFlags, overflowFlag, Bool.and_eq_true, bne_iff_ne]

/-- A flag write changes nothing but the flags. -/
theorem setFlags_frame (s : State) (f : Flags) :
    (s.setFlags f).pc = s.pc ∧ SameRegs s (s.setFlags f) ∧ SameMemory s (s.setFlags f) ∧
      SameStack s (s.setFlags f) ∧ SameControl s (s.setFlags f) ∧ SameOutput s (s.setFlags f) := by
  simp [SameRegs, SameMemory, SameStack, SameControl, SameOutput]

/-- R79: CMP always answers, and writes the flags of the difference. -/
theorem exec_cmp (rm rn : Reg) (s : State) :
    exec (.cmp rm rn) s =
      .next (s.setFlags (computeFlags (s.reg rm - s.reg rn) (s.reg rm) (s.reg rn) .subtract)) :=
  rfl

/-- Settles O9: the words by the decoder's S3 form, the flags by the subtract rules, the rest by the frame of a
flag write. -/
theorem cmpRule : Obligations.CmpRule := by
  unfold Obligations.CmpRule
  refine ⟨fun w hw => ⟨rmField w, rnField w, decode_cmp hw, rmField_val w, rnField_val w⟩, fun rm rn s => ?_⟩
  refine ⟨_, exec_cmp rm rn s, ?zero, ?sign, ?carry, ?overflow, setFlags_frame s _⟩
  case zero => rw [setFlags_flags, computeFlags_zero, word_sub_toNat_eq_zero]
  case sign => rw [setFlags_flags, computeFlags_sign, word_sub_toNat]
  case carry => exact computeFlags_subtract_carry _ _ _
  case overflow => exact computeFlags_subtract_overflow _ _ _

end Sys2Proof.Machine
end

section
/-! Settles the family of arithmetic and logic (O17 to O22). First what the shared write of a result does to the
registers, the flags and everything else, and the flag rules of the kinds add, multiply and other; then what each
instruction answers; then the obligations, read off from these. -/

namespace Sys2Proof.Machine

/-! ### The write of a result (R98) -/

/-- R98: the destination holds the result. -/
@[simp] theorem writeResult_reg_same (rd : Reg) (r a b : Word) (k : FlagKind) (s : State) :
    (writeResult rd r a b k s).reg rd = r :=
  setReg_reg_same s rd r

/-- R93, R98: Zero speaks of the destination's new value. -/
theorem writeResult_zero (rd : Reg) (r a b : Word) (k : FlagKind) (s : State) :
    (writeResult rd r a b k s).flags.zero = true ↔ ((writeResult rd r a b k s).reg rd).toNat = 0 := by
  rw [writeResult_flags, writeResult_reg_same, computeFlags_zero]

/-- R93, R98: Sign speaks of the destination's new value. -/
theorem writeResult_sign (rd : Reg) (r a b : Word) (k : FlagKind) (s : State) :
    (writeResult rd r a b k s).flags.sign = true ↔ 0x8000 ≤ ((writeResult rd r a b k s).reg rd).toNat := by
  rw [writeResult_flags, writeResult_reg_same, computeFlags_sign]

/-- R98: a result's write changes nothing but the destination and the flags. -/
theorem writeResult_aluFrame (rd : Reg) (r a b : Word) (k : FlagKind) (s : State) :
    AluFrame rd s (writeResult rd r a b k s) := by
  have others : SameRegsBut rd s (writeResult rd r a b k s) := fun q hq => by
    rw [writeResult_reg, if_neg hq]
  exact ⟨rfl, others, ⟨fun _ => rfl, rfl⟩, ⟨rfl, rfl, rfl⟩, ⟨rfl, rfl, rfl, rfl⟩, ⟨rfl, rfl⟩⟩

/-- R97, R98: after a result of kind other, C and V are clear. -/
theorem writeResult_other_logicFlags (rd : Reg) (r a b : Word) (s : State) :
    LogicFlags ((writeResult rd r a b .other s).reg rd) (writeResult rd r a b .other s).flags :=
  ⟨writeResult_zero rd r a b .other s, writeResult_sign rd r a b .other s, rfl, rfl⟩

/-! ### Carry and Overflow by kind (R94, R96) -/

/-- R94: Carry after an addition is the carry out of bit 15. -/
theorem computeFlags_add_carry (r a b : Word) :
    (computeFlags r a b .add).carry = true ↔ 0xFFFF < a.toNat + b.toNat :=
  decide_eq_true_iff

/-- R94: Overflow after an addition, by the sign bits. -/
theorem computeFlags_add_overflow (r a b : Word) :
    (computeFlags r a b .add).overflow = true ↔ a.msb = b.msb ∧ r.msb ≠ a.msb := by
  simp only [computeFlags, overflowFlag, Bool.and_eq_true, beq_iff_eq, bne_iff_ne]

/-- R94: the sign-bit form of Overflow is the library's signed overflow of an addition. -/
theorem computeFlags_add_overflow_eq_saddOverflow (a b : Word) :
    (computeFlags (a + b) a b .add).overflow = a.saddOverflow b :=
  (BitVec.saddOverflow_eq a b).symm

/-- Signed overflow of a 16-bit addition: the exact sum leaves the range of a signed word. -/
theorem word_saddOverflow_iff (a b : Word) :
    a.saddOverflow b = true ↔ a.toInt + b.toInt < -32768 ∨ 32767 < a.toInt + b.toInt := by
  simp only [BitVec.saddOverflow, Bool.or_eq_true, decide_eq_true_eq]
  omega

/-- R96: Carry after a multiplication means that the product was truncated. -/
theorem computeFlags_multiply_carry (r a b : Word) :
    (computeFlags r a b .multiply).carry = true ↔ 0xFFFF < a.toNat * b.toNat :=
  decide_eq_true_iff

/-- R96: Overflow after a multiplication is its Carry. -/
theorem computeFlags_multiply_overflow (r a b : Word) :
    (computeFlags r a b .multiply).overflow = true ↔ 0xFFFF < a.toNat * b.toNat :=
  computeFlags_multiply_carry r a b

/-! ### What each instruction answers (R99 to R105) -/

/-- R99: ADD always answers, by one write of its result. -/
theorem exec_add (rd rm rn : Reg) (s : State) :
    exec (.add rd rm rn) s = .next (writeResult rd (s.reg rm + s.reg rn) (s.reg rm) (s.reg rn) .add s) :=
  rfl

/-- R100: SUB always answers, by one write of its result. -/
theorem exec_sub (rd rm rn : Reg) (s : State) :
    exec (.sub rd rm rn) s = .next (writeResult rd (s.reg rm - s.reg rn) (s.reg rm) (s.reg rn) .subtract s) :=
  rfl

/-- R101: MUL always answers, by one write of its result. -/
theorem exec_mul (rd rm rn : Reg) (s : State) :
    exec (.mul rd rm rn) s =
      .next (writeResult rd (BitVec.ofNat 16 ((s.reg rm).toNat * (s.reg rn).toNat)) (s.reg rm) (s.reg rn)
        .multiply s) :=
  rfl

/-- R102: AND always answers, by one write of its result. -/
theorem exec_and (rd rm rn : Reg) (s : State) :
    exec (.and rd rm rn) s = .next (writeResult rd (s.reg rm &&& s.reg rn) (s.reg rm) (s.reg rn) .other s) :=
  rfl

/-- R103: OR always answers, by one write of its result. -/
theorem exec_or (rd rm rn : Reg) (s : State) :
    exec (.or rd rm rn) s = .next (writeResult rd (s.reg rm ||| s.reg rn) (s.reg rm) (s.reg rn) .other s) :=
  rfl

/-- R104: NOT always answers, by one write of its result. -/
theorem exec_not (rd rm : Reg) (s : State) :
    exec (.not rd rm) s = .next (writeResult rd (~~~(s.reg rm)) (s.reg rm) 0#16 .other s) :=
  rfl

/-- R105: XOR always answers, by one write of its result. -/
theorem exec_xor (rd rm rn : Reg) (s : State) :
    exec (.xor rd rm rn) s = .next (writeResult rd (s.reg rm ^^^ s.reg rn) (s.reg rm) (s.reg rn) .other s) :=
  rfl

/-! ### The obligations -/

/-- Settles O17: the words by the decoder's three-register layout (R60), the sum by the library's rule for a
truncated sum, C and V by the add rules. -/
theorem addRule : Obligations.AddRule := by
  unfold Obligations.AddRule
  refine ⟨fun w hw => ⟨_, _, _, decode_add hw, rdField_val w, rmField_val w, rnField_val w⟩, fun rd rm rn s => ?_⟩
  refine ⟨_, exec_add rd rm rn s, ?result, writeResult_zero .., writeResult_sign .., ?carry, ?overflow,
    writeResult_aluFrame ..⟩
  case result => rw [writeResult_reg_same, BitVec.toNat_add]
  case carry => exact computeFlags_add_carry _ _ _
  case overflow => rw [writeResult_flags, writeResult_reg_same, computeFlags_add_overflow]

/-- Settles O18: as for the sum, with the truncated difference and the subtract rules that CMP uses too. -/
theorem subRule : Obligations.SubRule := by
  unfold Obligations.SubRule
  refine ⟨fun w hw => ⟨_, _, _, decode_sub hw, rdField_val w, rmField_val w, rnField_val w⟩, fun rd rm rn s => ?_⟩
  refine ⟨_, exec_sub rd rm rn s, ?result, writeResult_zero .., writeResult_sign .., ?carry, ?overflow,
    writeResult_aluFrame ..⟩
  case result => rw [writeResult_reg_same, word_sub_toNat]
  case carry => exact computeFlags_subtract_carry _ _ _
  case overflow => rw [writeResult_flags, writeResult_reg_same, computeFlags_subtract_overflow]

/-- Settles O19: the result is the exact product cut to 16 bits, and C and V both say whether the cut lost
something. -/
theorem mulRule : Obligations.MulRule := by
  unfold Obligations.MulRule
  refine ⟨fun w hw => ⟨_, _, _, decode_mul hw, rdField_val w, rmField_val w, rnField_val w⟩, fun rd rm rn s => ?_⟩
  refine ⟨_, exec_mul rd rm rn s, ?result, writeResult_zero .., writeResult_sign .., ?carry, ?overflow,
    writeResult_aluFrame ..⟩
  case result => rw [writeResult_reg_same, BitVec.toNat_ofNat]
  case carry => exact computeFlags_multiply_carry _ _ _
  case overflow => exact computeFlags_multiply_overflow _ _ _

/-- Settles O20: the three instructions differ in the bits of the result alone; flags and frame are those of every
result of kind other. -/
theorem andOrXorRules : Obligations.AndOrXorRules := by
  unfold Obligations.AndOrXorRules
  refine ⟨fun w => ⟨rdField w, rmField w, rnField w, rdField_val w, rmField_val w, rnField_val w,
    decode_and, decode_or, decode_xor⟩, fun rd rm rn s => ⟨?and, ?or, ?xor⟩⟩
  case and =>
    refine ⟨_, exec_and rd rm rn s, fun k => ?_, writeResult_other_logicFlags .., writeResult_aluFrame ..⟩
    rw [writeResult_reg_same, BitVec.getLsbD_and]
  case or =>
    refine ⟨_, exec_or rd rm rn s, fun k => ?_, writeResult_other_logicFlags .., writeResult_aluFrame ..⟩
    rw [writeResult_reg_same, BitVec.getLsbD_or]
  case xor =>
    refine ⟨_, exec_xor rd rm rn s, fun k => ?_, writeResult_other_logicFlags .., writeResult_aluFrame ..⟩
    rw [writeResult_reg_same, BitVec.getLsbD_xor]

/-- Settles O21: the complement of a word is its distance from 0xFFFF; flags and frame are those of every result of
kind other. -/
theorem notRule : Obligations.NotRule := by
  unfold Obligations.NotRule
  refine ⟨fun w hw => ⟨_, _, decode_not hw, rdField_val w, rmField_val w⟩, fun rd rm s => ?_⟩
  refine ⟨_, exec_not rd rm s, ?result, writeResult_other_logicFlags .., writeResult_aluFrame ..⟩
  case result => rw [writeResult_reg_same, BitVec.toNat_not]

/-- Settles O22: both forms of Overflow are the library's `BitVec.saddOverflow`, one by its bit equation and one by
its definition. -/
theorem addFlags : Obligations.AddFlags := by
  unfold Obligations.AddFlags
  intro a b
  refine ⟨computeFlags_add_carry _ a b, computeFlags_add_overflow _ a b, ?signed⟩
  case signed => rw [computeFlags_add_overflow_eq_saddOverflow, word_saddOverflow_iff]

end Sys2Proof.Machine
end

section
/-! Settles the rotates (O26). First the rotation of a word by one, as the library has it: its value and its bit 15.
Then what ROR and ROL answer, in terms of that rotation; then the obligation, read off from these. -/

namespace Sys2Proof.Machine

/-! ### The rotation of a word by one -/

/-- R111: the pseudocode's result is a rotation, since the shift by 15 keeps nothing but bit 0. -/
theorem ror_shifts_eq_rotateRight_one (v : Word) : v >>> 1 ||| (v &&& 1#16) <<< 15 = v.rotateRight 1 := by
  have evicted : (v &&& 1#16) <<< 15 = v <<< 15 := by
    have bit0 : (v &&& 1#16).toNat = v.toNat % 2 := Nat.and_one_is_mod _
    apply BitVec.eq_of_toNat_eq
    rw [BitVec.toNat_shiftLeft, BitVec.toNat_shiftLeft, bit0, Nat.shiftLeft_eq, Nat.shiftLeft_eq]
    omega
  rw [evicted]
  rfl

/-- R111: bit 0 wraps around to bit 15; the other bits, halved, lie below it. -/
theorem word_rotateRight_one_toNat (v : Word) :
    (v.rotateRight 1).toNat = v.toNat / 2 + v.toNat % 2 * 32768 := by
  have evicted : v.toNat <<< 15 % 2 ^ 16 = (v.toNat % 2) <<< 15 := by
    rw [Nat.shiftLeft_eq, Nat.shiftLeft_eq]
    omega
  have low : v.toNat / 2 < 2 ^ 15 := by omega
  calc (v.rotateRight 1).toNat
    _ = v.toNat / 2 ||| (v.toNat % 2) <<< 15 := by rw [BitVec.toNat_rotateRight, evicted]; rfl
    _ = v.toNat / 2 + v.toNat % 2 * 32768 := by
      rw [Nat.or_comm, ← Nat.shiftLeft_add_eq_or_of_lt low, Nat.shiftLeft_eq, Nat.add_comm]

/-- R112: bit 15 wraps around to bit 0, which the other bits, doubled, leave clear. -/
theorem word_rotateLeft_one_toNat (v : Word) :
    (v.rotateLeft 1).toNat = v.toNat * 2 % 65536 + v.toNat / 32768 := by
  have doubled : v.toNat <<< 1 % 2 ^ 16 = (v.toNat % 32768) <<< 1 := by
    rw [Nat.shiftLeft_eq, Nat.shiftLeft_eq]
    omega
  have evicted : v.toNat / 32768 < 2 ^ 1 := by omega
  calc (v.rotateLeft 1).toNat
    _ = (v.toNat % 32768) <<< 1 ||| v.toNat / 32768 := by
      rw [BitVec.toNat_rotateLeft, doubled, Nat.shiftRight_eq_div_pow]
    _ = v.toNat * 2 % 65536 + v.toNat / 32768 := by
      rw [← Nat.shiftLeft_add_eq_or_of_lt evicted, ← doubled, Nat.shiftLeft_eq]
      rfl

/-- R111: bit 15 after a rotation to the right is the old bit 0. -/
theorem word_rotateRight_one_msb (v : Word) : (v.rotateRight 1).msb = v.getLsbD 0 :=
  BitVec.msb_rotateRight

/-- R112: bit 15 after a rotation to the left is the old bit 14. -/
theorem word_rotateLeft_one_msb (v : Word) : (v.rotateLeft 1).msb = v.getLsbD 14 :=
  BitVec.msb_rotateLeft

/-! ### What each instruction answers (R111, R112) -/

/-- R111: ROR always answers, by one write of its result. -/
theorem exec_ror (rd rm : Reg) (s : State) :
    exec (.ror rd rm) s = .next (writeResult rd ((s.reg rm).rotateRight 1) (s.reg rm) 1#16 .other s) := by
  rw [← ror_shifts_eq_rotateRight_one]
  rfl

/-- R112: ROL always answers, by one write of its result. -/
theorem exec_rol (rd rm : Reg) (s : State) :
    exec (.rol rd rm) s = .next (writeResult rd ((s.reg rm).rotateLeft 1) (s.reg rm) 1#16 .other s) :=
  rfl

/-! ### The obligation -/

/-- Settles O26: both results are rotations by one, whose value and bit 15 are said above; flags and frame are those
of every result of kind other. -/
theorem rotateRules : Obligations.RotateRules := by
  unfold Obligations.RotateRules
  refine ⟨fun w => ⟨rdField w, rmField w, rdField_val w, rmField_val w, decode_ror, decode_rol⟩,
    fun rd rm s => ⟨?ror, ?rol⟩⟩
  case ror =>
    refine ⟨_, exec_ror rd rm s, ?_, word_rotateRight_one_msb _, writeResult_other_logicFlags ..,
      writeResult_aluFrame ..⟩
    rw [writeResult_reg_same, word_rotateRight_one_toNat]
  case rol =>
    refine ⟨_, exec_rol rd rm s, ?_, word_rotateLeft_one_msb _, writeResult_other_logicFlags ..,
      writeResult_aluFrame ..⟩
    rw [writeResult_reg_same, word_rotateLeft_one_toNat]

end Sys2Proof.Machine
end

section
/-! Settles the statements about the encoding (O1 to O5). The bridge between the two directions is the row of the
opcode table: a word decodes to an instruction of a row exactly when it carries the row's fixed bits, and the
operands are then the word's fields. Decoding an encoded instruction, and encoding a decoded one, are read off
from that. -/

namespace Sys2Proof.Machine

/-! ### The fields as numbers (R59) -/

theorem append_toNat {m n : Nat} (x : BitVec m) (y : BitVec n) : (x ++ y).toNat = x.toNat * 2 ^ n + y.toNat := by
  rw [BitVec.toNat_append, ← Nat.shiftLeft_add_eq_or_of_lt y.isLt, Nat.shiftLeft_eq]

theorem opField_toNat (w : Word) : (opField w).toNat = w.toNat / 4096 := by
  have := w.isLt
  rw [opField, BitVec.extractLsb'_toNat, Nat.shiftRight_eq_div_pow]
  omega

theorem selField_toNat (w : Word) : (selField w).toNat = w.toNat % 4 := by
  rw [selField, BitVec.extractLsb'_toNat, Nat.shiftRight_zero]

theorem opField_eq_iff (w : Word) (c : BitVec 4) : opField w = c ↔ w.toNat / 4096 = c.toNat := by
  rw [BitVec.toNat_eq, opField_toNat]

theorem selField_eq_iff (w : Word) (c : BitVec 2) : selField w = c ↔ w.toNat % 4 = c.toNat := by
  rw [BitVec.toNat_eq, selField_toNat]

theorem immFlag_eq_true_iff (w : Word) : immFlag w = true ↔ w.toNat / 2048 % 2 = 1 := by
  rw [immFlag, BitVec.getLsbD, Nat.testBit_eq_decide_div_mod_eq, decide_eq_true_eq]

theorem immFlag_eq_false_iff (w : Word) : immFlag w = false ↔ w.toNat / 2048 % 2 = 0 := by
  rw [← Bool.not_eq_true, immFlag_eq_true_iff]
  omega

/-! ### The layouts as numbers (R60), and their fields -/

theorem regBits_toNat (r : Reg) : (regBits r).toNat = r.val := rfl

theorem encodeFields_toNat (op : BitVec 4) (i : BitVec 1) (rd rm rn : Reg) (sel : BitVec 2) :
    (encodeFields op i rd rm rn sel).toNat =
      op.toNat * 4096 + i.toNat * 2048 + rd.val * 256 + rm.val * 32 + rn.val * 4 + sel.toNat := by
  simp only [encodeFields, append_toNat, regBits_toNat]
  omega

theorem encodeJump_toNat (d : Int) (sel : BitVec 2) :
    (encodeJump d sel).toNat = 2048 + (BitVec.ofInt 9 d).toNat * 4 + sel.toNat := by
  simp only [encodeJump, append_toNat, BitVec.toNat_ofNat]
  omega

theorem encodeImm8_toNat (op : BitVec 4) (rd : Reg) (k : Byte) :
    (encodeImm8 op rd k).toNat = op.toNat * 4096 + 2048 + rd.val * 256 + k.toNat := by
  simp only [encodeImm8, append_toNat, regBits_toNat, BitVec.toNat_ofNat]
  omega

theorem encodeShift_toNat (op : BitVec 4) (rd rm : Reg) (n : Nat) :
    (encodeShift op rd rm n).toNat = op.toNat * 4096 + 2048 + rd.val * 256 + rm.val * 32 + n % 8 := by
  simp only [encodeShift, append_toNat, regBits_toNat, BitVec.toNat_ofNat]
  omega

@[simp] theorem rdField_encodeFields (op : BitVec 4) (i : BitVec 1) (rd rm rn : Reg) (sel : BitVec 2) :
    rdField (encodeFields op i rd rm rn sel) = rd := by
  apply Fin.ext
  rw [rdField_val, encodeFields_toNat]
  omega

@[simp] theorem rmField_encodeFields (op : BitVec 4) (i : BitVec 1) (rd rm rn : Reg) (sel : BitVec 2) :
    rmField (encodeFields op i rd rm rn sel) = rm := by
  apply Fin.ext
  rw [rmField_val, encodeFields_toNat]
  omega

@[simp] theorem rnField_encodeFields (op : BitVec 4) (i : BitVec 1) (rd rm rn : Reg) (sel : BitVec 2) :
    rnField (encodeFields op i rd rm rn sel) = rn := by
  apply Fin.ext
  rw [rnField_val, encodeFields_toNat]
  omega

@[simp] theorem rdField_encodeImm8 (op : BitVec 4) (rd : Reg) (k : Byte) : rdField (encodeImm8 op rd k) = rd := by
  apply Fin.ext
  rw [rdField_val, encodeImm8_toNat]
  omega

@[simp] theorem imm8Field_encodeImm8 (op : BitVec 4) (rd : Reg) (k : Byte) :
    imm8Field (encodeImm8 op rd k) = k := by
  apply BitVec.eq_of_toNat_eq
  rw [imm8Field_toNat, encodeImm8_toNat]
  omega

@[simp] theorem rdField_encodeShift (op : BitVec 4) (rd rm : Reg) (n : Nat) :
    rdField (encodeShift op rd rm n) = rd := by
  apply Fin.ext
  rw [rdField_val, encodeShift_toNat]
  omega

@[simp] theorem rmField_encodeShift (op : BitVec 4) (rd rm : Reg) (n : Nat) :
    rmField (encodeShift op rd rm n) = rm := by
  apply Fin.ext
  rw [rmField_val, encodeShift_toNat]
  omega

theorem sh3Field_encodeShift (op : BitVec 4) (rd rm : Reg) {n : Nat} (h : shiftOk n = true) :
    sh3Field (encodeShift op rd rm n) = n := by
  have hn : n ≤ 7 := of_decide_eq_true h
  rw [sh3Field_eq, encodeShift_toNat]
  omega

theorem dispField_encodeJump {d : Int} (sel : BitVec 2) (h : dispOk d = true) :
    dispField (encodeJump d sel) = d := by
  obtain ⟨hlo, hhi⟩ : -256 ≤ d ∧ d ≤ 255 := of_decide_eq_true h
  rw [dispField_eq, encodeJump_toNat, BitVec.toNat_ofInt]
  split <;> omega

/-! ### A word as its fields, under the masks of the forms -/

theorem ofBool_immFlag_toNat (w : Word) : (BitVec.ofBool (immFlag w)).toNat = w.toNat / 2048 % 2 := by
  cases h : immFlag w
  · rw [(immFlag_eq_false_iff w).1 h]; rfl
  · rw [(immFlag_eq_true_iff w).1 h]; rfl

/-- R59: every word is made of its six fields, in the register layout. -/
theorem word_eq_fields (w : Word) :
    w = encodeFields (opField w) (BitVec.ofBool (immFlag w)) (rdField w) (rmField w) (rnField w) (selField w) := by
  apply BitVec.eq_of_toNat_eq
  rw [encodeFields_toNat, opField_toNat, ofBool_immFlag_toNat, rdField_val, rmField_val, rnField_val, selField_toNat]
  omega

/-- A mask that keeps op and i keeps or clears each of the other fields of the register layout. -/
theorem registerLayout_and_mask (op : BitVec 4) (i : BitVec 1) (a b c ma mb mc : BitVec 3) (sel m : BitVec 2) :
    (op ++ i ++ a ++ b ++ c ++ sel) &&& (BitVec.allOnes 4 ++ BitVec.allOnes 1 ++ ma ++ mb ++ mc ++ m) =
      op ++ i ++ (a &&& ma) ++ (b &&& mb) ++ (c &&& mc) ++ (sel &&& m) := by
  simp only [BitVec.and_append, BitVec.and_allOnes]

/-- Every word under such a mask. -/
theorem word_and_mask (w : Word) (ma mb mc : BitVec 3) (m : BitVec 2) :
    w &&& (BitVec.allOnes 4 ++ BitVec.allOnes 1 ++ ma ++ mb ++ mc ++ m) =
      opField w ++ BitVec.ofBool (immFlag w) ++ (regBits (rdField w) &&& ma) ++ (regBits (rmField w) &&& mb) ++
        (regBits (rnField w) &&& mc) ++ (selField w &&& m) :=
  (congrArg (· &&& _) (word_eq_fields w)).trans (registerLayout_and_mask _ _ _ _ _ ma mb mc _ m)

/-- The mask 0xF800 keeps op and i. -/
theorem and_opMask {w : Word} {op : BitVec 4} {i : Bool} (hop : opField w = op) (hi : immFlag w = i) :
    w &&& 0xF800#16 = op ++ BitVec.ofBool i ++ 0#3 ++ 0#3 ++ 0#3 ++ 0#2 := by
  have h := word_and_mask w 0#3 0#3 0#3 0#2
  rw [hop, hi, BitVec.and_zero, BitVec.and_zero, BitVec.and_zero, BitVec.and_zero] at h
  exact h

/-- The mask 0xF803 keeps op, i and the selector. -/
theorem and_opSelMask {w : Word} {op : BitVec 4} {i : Bool} {sel : BitVec 2} (hop : opField w = op)
    (hi : immFlag w = i) (hs : selField w = sel) :
    w &&& 0xF803#16 = op ++ BitVec.ofBool i ++ 0#3 ++ 0#3 ++ 0#3 ++ sel := by
  have h := word_and_mask w 0#3 0#3 0#3 (BitVec.allOnes 2)
  rw [hop, hi, hs, BitVec.and_zero, BitVec.and_zero, BitVec.and_zero, BitVec.and_allOnes] at h
  exact h

/-- The instruction of `i`'s row whose operands are the fields of `w`. -/
def withFieldsOf (w : Word) (i : Instr) : Instr :=
  match i with
  | .nop => .nop
  | .push _ => .push (rnField w)
  | .pop _ => .pop (rdField w)
  | .cmp _ _ => .cmp (rmField w) (rnField w)
  | .jmp _ => .jmp (dispField w)
  | .jeq _ => .jeq (dispField w)
  | .jlt _ => .jlt (dispField w)
  | .jgt _ => .jgt (dispField w)
  | .mov _ _ => .mov (rdField w) (rmField w)
  | .movi _ _ => .movi (rdField w) (imm8Field w)
  | .store _ _ => .store (rmField w) (rnField w)
  | .storei _ _ => .storei (rdField w) (imm8Field w)
  | .load _ _ => .load (rdField w) (rmField w)
  | .add _ _ _ => .add (rdField w) (rmField w) (rnField w)
  | .sub _ _ _ => .sub (rdField w) (rmField w) (rnField w)
  | .mul _ _ _ => .mul (rdField w) (rmField w) (rnField w)
  | .and _ _ _ => .and (rdField w) (rmField w) (rnField w)
  | .or _ _ _ => .or (rdField w) (rmField w) (rnField w)
  | .not _ _ => .not (rdField w) (rmField w)
  | .xor _ _ _ => .xor (rdField w) (rmField w) (rnField w)
  | .shr _ _ => .shr (rdField w) (rmField w)
  | .shri _ _ _ => .shri (rdField w) (rmField w) (sh3Field w)
  | .shl _ _ => .shl (rdField w) (rmField w)
  | .shli _ _ _ => .shli (rdField w) (rmField w) (sh3Field w)
  | .ror _ _ => .ror (rdField w) (rmField w)
  | .rol _ _ => .rol (rdField w) (rmField w)
  | .halt => .halt

theorem decode_of_row {w : Word} {i : Instr} (h : w &&& (opcodeRow i).2 = (opcodeRow i).1) :
    decode w = .ok (withFieldsOf w i) := by
  cases i with
  | nop =>
    obtain rfl : w = 0x0000#16 := (BitVec.and_allOnes (x := w)).symm.trans h
    rfl
  | push => exact decode_push h
  | pop => exact decode_pop h
  | cmp => exact decode_cmp h
  | jmp => exact decode_jmp h
  | jeq => exact decode_jeq h
  | jlt => exact decode_jlt h
  | jgt => exact decode_jgt h
  | mov => exact decode_mov h
  | movi => exact decode_movi h
  | store => exact decode_store h
  | storei => exact decode_storei h
  | load => exact decode_load h
  | add => exact decode_add h
  | sub => exact decode_sub h
  | mul => exact decode_mul h
  | and => exact decode_and h
  | or => exact decode_or h
  | not => exact decode_not h
  | xor => exact decode_xor h
  | shr => exact decode_shr h
  | shri => exact decode_shri h
  | shl => exact decode_shl h
  | shli => exact decode_shli h
  | ror => exact decode_ror h
  | rol => exact decode_rol h
  | halt =>
    obtain rfl : w = 0xFFFF#16 := (BitVec.and_allOnes (x := w)).symm.trans h
    rfl

/-- The word of an instruction carries its row's fixed bits. -/
theorem encode_row (i : Instr) : encode i &&& (opcodeRow i).2 = (opcodeRow i).1 := by
  cases i with
  | nop => exact Laws.OpcodeRow.nop
  | push => exact Laws.OpcodeRow.push _
  | pop => exact Laws.OpcodeRow.pop _
  | cmp => exact Laws.OpcodeRow.cmp _ _
  | jmp => exact Laws.OpcodeRow.jmp _
  | jeq => exact Laws.OpcodeRow.jeq _
  | jlt => exact Laws.OpcodeRow.jlt _
  | jgt => exact Laws.OpcodeRow.jgt _
  | mov => exact Laws.OpcodeRow.mov _ _
  | movi => exact Laws.OpcodeRow.movi _ _
  | store => exact Laws.OpcodeRow.store _ _
  | storei => exact Laws.OpcodeRow.storei _ _
  | load => exact Laws.OpcodeRow.load _ _
  | add => exact Laws.OpcodeRow.add _ _ _
  | sub => exact Laws.OpcodeRow.sub _ _ _
  | mul => exact Laws.OpcodeRow.mul _ _ _
  | and => exact Laws.OpcodeRow.and _ _ _
  | or => exact Laws.OpcodeRow.or _ _ _
  | not => exact Laws.OpcodeRow.not _ _
  | xor => exact Laws.OpcodeRow.xor _ _ _
  | shr => exact Laws.OpcodeRow.shr _ _
  | shri => exact Laws.OpcodeRow.shri _ _ _
  | shl => exact Laws.OpcodeRow.shl _ _
  | shli => exact Laws.OpcodeRow.shli _ _ _
  | ror => exact Laws.OpcodeRow.ror _ _
  | rol => exact Laws.OpcodeRow.rol _ _
  | halt => exact Laws.OpcodeRow.halt

/-- The fields of a well-formed instruction's word are its operands. -/
theorem withFieldsOf_encode {i : Instr} (h : WellFormed i) : withFieldsOf (encode i) i = i := by
  cases i with
  | jmp d => exact congrArg Instr.jmp (dispField_encodeJump _ h)
  | jeq d => exact congrArg Instr.jeq (dispField_encodeJump _ h)
  | jlt d => exact congrArg Instr.jlt (dispField_encodeJump _ h)
  | jgt d => exact congrArg Instr.jgt (dispField_encodeJump _ h)
  | shri rd rm n => simp [withFieldsOf, encode, sh3Field_encodeShift _ _ _ h]
  | shli rd rm n => simp [withFieldsOf, encode, sh3Field_encodeShift _ _ _ h]
  | _ => simp [withFieldsOf, encode]

/-- Settles O1: the encoded word carries the row's fixed bits, so it decodes to the row's instruction with the
word's fields, and those are the operands. -/
theorem decodeEncode : Obligations.DecodeEncode := by
  unfold Obligations.DecodeEncode
  intro i hwf
  rw [decode_of_row (encode_row i), withFieldsOf_encode hwf]

theorem registerOnly_eq_ok {w : Word} {i j : Instr} (h : registerOnly w j = .ok i) : immFlag w = false ∧ j = i := by
  unfold registerOnly at h
  split at h
  · cases h
  · exact ⟨Bool.eq_false_iff.2 ‹_›, Except.ok.inj h⟩

/-- R67: the last of the four selectors. -/
theorem selField_eq_three {w : Word} (h0 : selField w ≠ 0#2) (h1 : selField w ≠ 1#2) (h2 : selField w ≠ 2#2) :
    selField w = 3#2 := by
  revert h0 h1 h2
  generalize selField w = sel
  revert sel
  decide

theorem row_of_decodeControl {w : Word} {i : Instr} (hop : opField w = 0x0#4) (hi : immFlag w = true)
    (h : decodeControl w = .ok i) : w &&& (opcodeRow i).2 = (opcodeRow i).1 := by
  unfold decodeControl at h
  split at h
  case h_1 hs => cases h; exact and_opSelMask hop hi hs
  case h_2 hs => cases h; exact and_opSelMask hop hi hs
  case h_3 hs => cases h; exact and_opSelMask hop hi hs
  case h_4 h0 h1 h2 =>
    cases h
    exact and_opSelMask hop hi (selField_eq_three h0 h1 h2)

theorem row_of_decodeStackGroup {w : Word} {i : Instr} (hop : opField w = 0x0#4) (hi : immFlag w = false)
    (h : decodeStackGroup w = .ok i) : w &&& (opcodeRow i).2 = (opcodeRow i).1 := by
  unfold decodeStackGroup at h
  split at h
  case h_1 hs =>
    split at h
    case isTrue hw => subst hw; cases h; rfl
    case isFalse => cases h
  case h_2 hs => cases h; exact and_opSelMask hop hi hs
  case h_3 hs => cases h; exact and_opSelMask hop hi hs
  case h_4 h0 h1 h2 =>
    cases h
    exact and_opSelMask hop hi (selField_eq_three h0 h1 h2)

/-- A word that decodes carries the fixed bits of its instruction's row. -/
theorem row_of_decode {w : Word} {i : Instr} (h : decode w = .ok i) :
    w &&& (opcodeRow i).2 = (opcodeRow i).1 := by
  unfold decode at h
  split at h
  case h_1 hop =>
    cases hi : immFlag w with
    | true => exact row_of_decodeControl hop hi (by rwa [if_pos hi] at h)
    | false => exact row_of_decodeStackGroup hop hi (by rwa [if_neg (by simp [hi])] at h)
  case h_2 hop | h_3 hop | h_12 hop | h_13 hop =>
    cases hi : immFlag w <;> rw [hi] at h <;> cases h <;> exact and_opMask hop hi
  case h_4 hop =>
    split at h
    case isTrue => cases h
    case isFalse hi => cases h; exact and_opMask hop (Bool.eq_false_iff.2 hi)
  case h_16 =>
    split at h
    case isTrue hw => subst hw; cases h; rfl
    case isFalse => cases h
  all_goals
    rename_i hop
    obtain ⟨hi, rfl⟩ := registerOnly_eq_ok h
    exact and_opMask hop hi

/-! ### What encodes to the read bits of a word, for each set of fields that a form reads (R60, R69) -/

theorem encode_rd_rm {w k : Word} (h : w &&& 0xF800#16 = k) :
    encodeFields (k.extractLsb' 12 4) (BitVec.ofBool (k.getLsbD 11)) (rdField w) (rmField w) 0 0#2 =
      w &&& 0xFFE0#16 := by
  have hw := word_and_mask w (BitVec.allOnes 3) (BitVec.allOnes 3) 0#3 0#2
  rw [(topBits_of_mask h).1, (topBits_of_mask h).2, BitVec.and_allOnes, BitVec.and_allOnes, BitVec.and_zero,
    BitVec.and_zero] at hw
  exact hw.symm

theorem encode_rd_rm_rn {w k : Word} (h : w &&& 0xF800#16 = k) :
    encodeFields (k.extractLsb' 12 4) (BitVec.ofBool (k.getLsbD 11)) (rdField w) (rmField w) (rnField w) 0#2 =
      w &&& 0xFFFC#16 := by
  have hw := word_and_mask w (BitVec.allOnes 3) (BitVec.allOnes 3) (BitVec.allOnes 3) 0#2
  rw [(topBits_of_mask h).1, (topBits_of_mask h).2, BitVec.and_allOnes, BitVec.and_allOnes, BitVec.and_allOnes,
    BitVec.and_zero] at hw
  exact hw.symm

theorem encode_rm_rn {w k : Word} (h : w &&& 0xF800#16 = k) :
    encodeFields (k.extractLsb' 12 4) (BitVec.ofBool (k.getLsbD 11)) 0 (rmField w) (rnField w) 0#2 =
      w &&& 0xF8FC#16 := by
  have hw := word_and_mask w 0#3 (BitVec.allOnes 3) (BitVec.allOnes 3) 0#2
  rw [(topBits_of_mask h).1, (topBits_of_mask h).2, BitVec.and_zero, BitVec.and_allOnes, BitVec.and_allOnes,
    BitVec.and_zero] at hw
  exact hw.symm

theorem encode_push {w : Word} (h : w &&& 0xF803#16 = 0x0001#16) : encode (.push (rnField w)) = w &&& 0xF81F#16 := by
  obtain ⟨hop, hi, hs⟩ := topSelBits_of_mask h
  have hw := word_and_mask w 0#3 0#3 (BitVec.allOnes 3) (BitVec.allOnes 2)
  rw [hop, hi, hs, BitVec.and_zero, BitVec.and_zero, BitVec.and_allOnes, BitVec.and_allOnes] at hw
  exact hw.symm

theorem encode_pop {w : Word} (h : w &&& 0xF803#16 = 0x0002#16) : encode (.pop (rdField w)) = w &&& 0xFF03#16 := by
  obtain ⟨hop, hi, hs⟩ := topSelBits_of_mask h
  have hw := word_and_mask w (BitVec.allOnes 3) 0#3 0#3 (BitVec.allOnes 2)
  rw [hop, hi, hs, BitVec.and_allOnes, BitVec.and_zero, BitVec.and_zero, BitVec.and_allOnes] at hw
  exact hw.symm

theorem encode_cmp {w : Word} (h : w &&& 0xF803#16 = 0x0003#16) :
    encode (.cmp (rmField w) (rnField w)) = w &&& 0xF8FF#16 := by
  obtain ⟨hop, hi, hs⟩ := topSelBits_of_mask h
  have hw := word_and_mask w 0#3 (BitVec.allOnes 3) (BitVec.allOnes 3) (BitVec.allOnes 2)
  rw [hop, hi, hs, BitVec.and_zero, BitVec.and_allOnes, BitVec.and_allOnes, BitVec.and_allOnes] at hw
  exact hw.symm

/-- Form J reads every bit. -/
theorem encode_disp {w k : Word} (h : w &&& 0xF803#16 = k) (hop : k.extractLsb' 12 4 = 0x0#4)
    (hi : k.getLsbD 11 = true) : encodeJump (dispField w) (k.extractLsb' 0 2) = w &&& 0xFFFF#16 := by
  have hd : BitVec.ofInt 9 (dispField w) = w.extractLsb' 2 9 := BitVec.ofInt_toInt
  have h9 : (w.extractLsb' 2 9).toNat = w.toNat / 4 % 512 := by
    rw [BitVec.extractLsb'_toNat, Nat.shiftRight_eq_div_pow]
  obtain ⟨hop', hi', hs⟩ := topSelBits_of_mask h
  have hop0 := (opField_eq_iff w _).1 (hop'.trans hop)
  have hi1 := (immFlag_eq_true_iff w).1 (hi'.trans hi)
  apply BitVec.eq_of_toNat_eq
  rw [encodeJump_toNat, hd, h9, ← hs, selField_toNat, show w &&& 0xFFFF#16 = w from BitVec.and_allOnes]
  rw [show (0x0#4).toNat = 0 from rfl] at hop0
  omega

/-- Form I8 reads every bit. -/
theorem encode_rd_imm8 {w k : Word} (h : w &&& 0xF800#16 = k) (hi : k.getLsbD 11 = true) :
    encodeImm8 (k.extractLsb' 12 4) (rdField w) (imm8Field w) = w &&& 0xFFFF#16 := by
  obtain ⟨hop, hi'⟩ := topBits_of_mask h
  have hi1 := (immFlag_eq_true_iff w).1 (hi'.trans hi)
  apply BitVec.eq_of_toNat_eq
  rw [encodeImm8_toNat, ← hop, opField_toNat, rdField_val, imm8Field_toNat,
    show w &&& 0xFFFF#16 = w from BitVec.and_allOnes]
  omega

/-- R60: a word in the layout of form SH, bits 4 and 3 apart. -/
theorem word_eq_shiftFields (w : Word) :
    w = opField w ++ BitVec.ofBool (immFlag w) ++ regBits (rdField w) ++ regBits (rmField w) ++
      w.extractLsb' 3 2 ++ w.extractLsb' 0 3 := by
  have himm : (BitVec.ofBool (immFlag w)).toNat = w.toNat / 2048 % 2 := ofBool_immFlag_toNat w
  apply BitVec.eq_of_toNat_eq
  simp only [append_toNat, opField_toNat, himm, regBits_toNat, rdField_val, rmField_val, BitVec.extractLsb'_toNat,
    Nat.shiftRight_eq_div_pow]
  omega

theorem shiftLayout_and_read (op : BitVec 4) (i : BitVec 1) (a b : BitVec 3) (z : BitVec 2) (n : BitVec 3) :
    (op ++ i ++ a ++ b ++ z ++ n) &&&
        (BitVec.allOnes 4 ++ BitVec.allOnes 1 ++ BitVec.allOnes 3 ++ BitVec.allOnes 3 ++ 0#2 ++ BitVec.allOnes 3) =
      op ++ i ++ a ++ b ++ 0#2 ++ n := by
  simp only [BitVec.and_append, BitVec.and_allOnes, BitVec.and_zero]

/-- Form SH reads every bit but 4 and 3. -/
theorem encode_rd_rm_sh3 {w k : Word} (h : w &&& 0xF800#16 = k) (hi : k.getLsbD 11 = true) :
    encodeShift (k.extractLsb' 12 4) (rdField w) (rmField w) (sh3Field w) = w &&& 0xFFE7#16 := by
  obtain ⟨hop, hi'⟩ := topBits_of_mask h
  have hn : BitVec.ofNat 3 (sh3Field w) = w.extractLsb' 0 3 := BitVec.ofNat_toNat _ _ |>.trans (BitVec.setWidth_eq _)
  have hw := (congrArg (· &&& 0xFFE7#16) (word_eq_shiftFields w)).trans (shiftLayout_and_read _ _ _ _ _ _)
  rw [hop, hi', hi] at hw
  rw [encodeShift, hn]
  exact hw.symm

/-- The fields of a legal word encode to its read bits. -/
theorem encode_withFieldsOf {w : Word} {i : Instr} (h : w &&& (opcodeRow i).2 = (opcodeRow i).1) :
    encode (withFieldsOf w i) = w &&& readBits i := by
  cases i with
  | nop => exact h.symm
  | push => exact encode_push h
  | pop => exact encode_pop h
  | cmp => exact encode_cmp h
  | jmp => exact encode_disp (k := 0x0800#16) h rfl rfl
  | jeq => exact encode_disp (k := 0x0801#16) h rfl rfl
  | jlt => exact encode_disp (k := 0x0802#16) h rfl rfl
  | jgt => exact encode_disp (k := 0x0803#16) h rfl rfl
  | mov => exact encode_rd_rm (k := 0x1000#16) h
  | movi => exact encode_rd_imm8 (k := 0x1800#16) h rfl
  | store => exact encode_rm_rn (k := 0x2000#16) h
  | storei => exact encode_rd_imm8 (k := 0x2800#16) h rfl
  | load => exact encode_rd_rm (k := 0x3000#16) h
  | add => exact encode_rd_rm_rn (k := 0x4000#16) h
  | sub => exact encode_rd_rm_rn (k := 0x5000#16) h
  | mul => exact encode_rd_rm_rn (k := 0x6000#16) h
  | and => exact encode_rd_rm_rn (k := 0x7000#16) h
  | or => exact encode_rd_rm_rn (k := 0x8000#16) h
  | not => exact encode_rd_rm (k := 0x9000#16) h
  | xor => exact encode_rd_rm_rn (k := 0xA000#16) h
  | shr => exact encode_rd_rm (k := 0xB000#16) h
  | shri => exact encode_rd_rm_sh3 (k := 0xB800#16) h rfl
  | shl => exact encode_rd_rm (k := 0xC000#16) h
  | shli => exact encode_rd_rm_sh3 (k := 0xC800#16) h rfl
  | ror => exact encode_rd_rm (k := 0xD000#16) h
  | rol => exact encode_rd_rm (k := 0xE000#16) h
  | halt => exact h.symm

/-- The fields of a word lie within the bounds of their forms (R62, R63). -/
theorem wellFormed_withFieldsOf (w : Word) (i : Instr) : WellFormed (withFieldsOf w i) := by
  have hdisp : dispOk (dispField w) = true := decide_eq_true (dispField_range w)
  have hcount : shiftOk (sh3Field w) = true := decide_eq_true (sh3Field_range w)
  cases i with
  | jmp => exact hdisp
  | jeq => exact hdisp
  | jlt => exact hdisp
  | jgt => exact hdisp
  | shri => exact hcount
  | shli => exact hcount
  | _ => rfl

/-- Every form reads its row's fixed bits. -/
theorem opcodeRow_mask_and_readBits (i : Instr) : (opcodeRow i).2 &&& readBits i = (opcodeRow i).2 := by
  cases i <;> simp only [opcodeRow, readBits] <;> rfl

/-- A legal word's operands are its fields. -/
theorem withFieldsOf_of_decode {w : Word} {i : Instr} (h : decode w = .ok i) : withFieldsOf w i = i :=
  Except.ok.inj ((decode_of_row (row_of_decode h)).symm.trans h)

/-- Settles O2: a legal word carries its row's fixed bits, its operands are its fields, and these encode to the
bits that the form reads. -/
theorem encodeDecode : Obligations.EncodeDecode := by
  unfold Obligations.EncodeDecode
  intro w i h
  have hfields := withFieldsOf_of_decode h
  have hwf := wellFormed_withFieldsOf w i
  have hbits := encode_withFieldsOf (row_of_decode h)
  rw [hfields] at hwf hbits
  exact ⟨hwf, hbits⟩

/-- Settles O3: a word that agrees on the read bits is in the same row, so its instruction encodes to the same
word, and encoding is injective on what decodes. -/
theorem unreadBitsIgnored : Obligations.UnreadBitsIgnored := by
  unfold Obligations.UnreadBitsIgnored
  intro w w' i h hagree
  have hrow : w' &&& (opcodeRow i).2 = (opcodeRow i).1 := by
    rw [← row_of_decode h, ← opcodeRow_mask_and_readBits i, BitVec.and_comm (opcodeRow i).2, ← BitVec.and_assoc,
      ← BitVec.and_assoc, hagree]
  have hsame : encode (withFieldsOf w' i) = encode i := by
    rw [encode_withFieldsOf hrow, hagree, (encodeDecode w i h).2]
  calc decode w'
    _ = .ok (withFieldsOf w' i) := decode_of_row hrow
    _ = decode (encode (withFieldsOf w' i)) := (decodeEncode _ (wellFormed_withFieldsOf w' i)).symm
    _ = decode (encode i) := by rw [hsame]
    _ = .ok i := decodeEncode i (encodeDecode w i h).1

/-! ### The illegal words (R68) -/

/-- R68 item 3: the opcodes without a form with i = 1. -/
def registerOps : List (BitVec 4) := [0x4#4, 0x5#4, 0x6#4, 0x7#4, 0x8#4, 0x9#4, 0xA#4, 0xD#4, 0xE#4]

/-- The fields of the words that are illegal for a reason. -/
def IllegalWhen (e : Illegal) (w : Word) : Prop :=
  match e with
  | .op0SelectorZero => opField w = 0x0#4 ∧ immFlag w = false ∧ selField w = 0#2 ∧ w ≠ 0x0000#16
  | .op3Immediate => opField w = 0x3#4 ∧ immFlag w = true
  | .noImmediateForm => opField w ∈ registerOps ∧ immFlag w = true
  | .opFReserved => opField w = 0xF#4 ∧ w ≠ 0xFFFF#16

theorem decode_of_illegalWhen {e : Illegal} {w : Word} (h : IllegalWhen e w) : decode w = .error e := by
  cases e with
  | op0SelectorZero =>
    obtain ⟨hop, hi, hs, hw⟩ := h
    simp [decode, decodeStackGroup, hop, hi, hs, hw]
  | op3Immediate =>
    obtain ⟨hop, hi⟩ := h
    simp [decode, hop, hi]
  | noImmediateForm =>
    obtain ⟨hop, hi⟩ := h
    simp only [registerOps, List.mem_cons, List.not_mem_nil, or_false] at hop
    rcases hop with hop | hop | hop | hop | hop | hop | hop | hop | hop <;> simp [decode, registerOnly, hop, hi]
  | opFReserved =>
    obtain ⟨hop, hw⟩ := h
    simp [decode, hop, hw]

theorem illegalWhen_of_registerOnly {w : Word} {j : Instr} {e : Illegal} (hop : opField w ∈ registerOps)
    (h : registerOnly w j = .error e) : IllegalWhen e w := by
  unfold registerOnly at h
  split at h
  · cases h
    exact ⟨hop, ‹_›⟩
  · cases h

theorem illegalWhen_of_decodeStackGroup {w : Word} {e : Illegal} (hop : opField w = 0x0#4) (hi : immFlag w = false)
    (h : decodeStackGroup w = .error e) : IllegalWhen e w := by
  unfold decodeStackGroup at h
  split at h
  case h_1 hs =>
    split at h
    case isTrue => cases h
    case isFalse hw => cases h; exact ⟨hop, hi, hs, hw⟩
  all_goals cases h

theorem decodeControl_ne_error (w : Word) (e : Illegal) : decodeControl w ≠ .error e := by
  unfold decodeControl
  split <;> exact nofun

theorem illegalWhen_of_decode {e : Illegal} {w : Word} (h : decode w = .error e) : IllegalWhen e w := by
  unfold decode at h
  split at h
  case h_1 hop =>
    split at h
    case isTrue => exact absurd h (decodeControl_ne_error w e)
    case isFalse hi => exact illegalWhen_of_decodeStackGroup hop (Bool.eq_false_iff.2 hi) h
  case h_2 | h_3 | h_12 | h_13 => cases h
  case h_4 hop =>
    split at h
    case isTrue hi => cases h; exact ⟨hop, hi⟩
    case isFalse => cases h
  case h_16 =>
    split at h
    case isTrue => cases h
    case isFalse hw =>
      have hop : opField w = 0xF#4 := by
        generalize opField w = op at *
        revert op
        decide
      cases h
      exact ⟨hop, hw⟩
  all_goals
    rename_i hop
    exact illegalWhen_of_registerOnly (by rw [hop]; decide) h

theorem decode_eq_error_iff (e : Illegal) (w : Word) : decode w = .error e ↔ IllegalWhen e w :=
  ⟨illegalWhen_of_decode, decode_of_illegalWhen⟩

/-- R68 item 1, by number. -/
theorem illegalWhen_op0SelectorZero_iff (w : Word) :
    IllegalWhen .op0SelectorZero w ↔ w.toNat / 2048 = 0 ∧ w.toNat % 4 = 0 ∧ w.toNat ≠ 0 := by
  unfold IllegalWhen
  rw [opField_eq_iff, immFlag_eq_false_iff, selField_eq_iff, BitVec.toNat_ne]
  simp only [BitVec.toNat_ofNat]
  omega

/-- R68 item 3, by number. -/
theorem opField_mem_registerOps (w : Word) :
    opField w ∈ registerOps ↔ w.toNat / 4096 ∈ [0x4, 0x5, 0x6, 0x7, 0x8, 0x9, 0xA, 0xD, 0xE] := by
  simp only [registerOps, List.mem_cons, List.not_mem_nil, or_false, opField_eq_iff, BitVec.toNat_ofNat]

/-- Settles O4: for each reason, the fields of the words that have it, read as numbers. -/
theorem illegalWords : Obligations.IllegalWords := by
  unfold Obligations.IllegalWords
  intro w
  simp only [decode_eq_error_iff]
  refine ⟨illegalWhen_op0SelectorZero_iff w, ?op3, ?register, ?opF⟩
  case op3 => exact and_congr (opField_eq_iff w _) (immFlag_eq_true_iff w)
  case register => exact and_congr (opField_mem_registerOps w) (immFlag_eq_true_iff w)
  case opF => exact and_congr (opField_eq_iff w _) (BitVec.toNat_ne (x := w) (y := 0xFFFF#16))

/-- Settles O5: each of the 24 words is evaluated. -/
theorem decodeSpecWords : Obligations.DecodeSpecWords := by
  unfold Obligations.DecodeSpecWords
  decide

end Sys2Proof.Machine
end

section
/-! Settles the frames over all instructions (O35 to O38). First, said once for all 27 instructions, which state
operation an instruction's answer is and what the tables of R16, R24, R38 and R81 to R84 say of that instruction;
every frame is then a split over these few operations. -/

namespace Sys2Proof.Machine

/-- What the tables say of an instruction in a state: the register it may write (R16), whether it writes flags
(R24), the address it stores to (R38), the displacement it jumps by (R81 to R84). -/
structure Tables (i : Instr) (s : State) (dest : Option Reg) (flags : Bool) (target : Option Word)
    (jump : Option Int) : Prop where
  dest_eq : destOf i = dest
  flags_eq : writesFlags i = flags
  target_eq : storeTarget i s = target
  jump_eq : takenJump i s.flags = jump

/-- The answers of an instruction, by the operation that makes them. -/
inductive Effect (i : Instr) (s : State) : State → Prop where
  /-- R98: the arithmetic, logic and shift instructions. -/
  | result (rd : Reg) (r a b : Word) (k : FlagKind) (tables : Tables i s (some rd) true none none) :
    Effect i s (writeResult rd r a b k s)
  /-- R79: CMP. -/
  | flags (r a b : Word) (k : FlagKind) (tables : Tables i s none true none none) :
    Effect i s (s.setFlags (computeFlags r a b k))
  /-- R81 to R84: the jumps, taken or not. -/
  | jump (j : Option Int) (tables : Tables i s none false none j) :
    Effect i s (s.setPc (j.elim s.pc (branchWrite s.pc)))
  /-- R86, R87: the moves. -/
  | move (rd : Reg) (v : Word) (tables : Tables i s (some rd) false none none) : Effect i s (s.setReg rd v)
  /-- R88, R89: the stores. -/
  | store (a v : Word) (tables : Tables i s none false (some a) none) : Effect i s (checkedStore a v s)
  /-- R90: the load. -/
  | load (rd : Reg) (a : Word) (tables : Tables i s (some rd) false none none) : Effect i s (checkedLoad rd a s)
  /-- R77: PUSH. -/
  | push (rn : Reg) (v : Word) (t : State) (tables : Tables i s none false none none) (instr : i = .push rn)
    (pushed : push v s = .next t) : Effect i s t
  /-- R78: POP. -/
  | pop (rd : Reg) (v : Word) (u : State) (tables : Tables i s (some rd) false none none) (instr : i = .pop rd)
    (popped : pop s = .next (v, u)) : Effect i s (u.setReg rd v)
  /-- R76: NOP. -/
  | report (tables : Tables i s none false none none) : Effect i s (s.emit .report s.pc).makeReport
  /-- R113: HALT. -/
  | halt (tables : Tables i s none false none none) (instr : i = .halt) :
    Effect i s (s.stop .halted .haltSentinel s.pc)

/-- A jump by a displacement that its condition admits. -/
theorem jumpIf_eq_elim (b : Bool) (d : Int) (s : State) :
    jumpIf b d s = s.setPc ((if b then some d else none).elim s.pc (branchWrite s.pc)) := by
  cases b <;> rfl

/-- Every answer of every instruction. -/
theorem exec_effect {i : Instr} {s t : State} (h : exec i s = .next t) : Effect i s t := by
  cases i with
  | nop => cases h; exact .report ⟨rfl, rfl, rfl, rfl⟩
  | push rn => exact .push rn _ t ⟨rfl, rfl, rfl, rfl⟩ rfl h
  | pop rd =>
    obtain ⟨⟨v, u⟩, hpop, ht⟩ := andThen_next h
    cases ht
    exact .pop rd v u ⟨rfl, rfl, rfl, rfl⟩ rfl hpop
  | cmp => cases h; exact .flags _ _ _ _ ⟨rfl, rfl, rfl, rfl⟩
  | jmp d => cases h; exact .jump (some d) ⟨rfl, rfl, rfl, rfl⟩
  | jeq d => cases h; rw [jumpIf_eq_elim]; exact .jump _ ⟨rfl, rfl, rfl, rfl⟩
  | jlt d => cases h; rw [jumpIf_eq_elim]; exact .jump _ ⟨rfl, rfl, rfl, rfl⟩
  | jgt d => cases h; rw [jumpIf_eq_elim]; exact .jump _ ⟨rfl, rfl, rfl, rfl⟩
  | mov => cases h; exact .move _ _ ⟨rfl, rfl, rfl, rfl⟩
  | movi => cases h; exact .move _ _ ⟨rfl, rfl, rfl, rfl⟩
  | store => cases h; exact .store _ _ ⟨rfl, rfl, rfl, rfl⟩
  | storei => cases h; exact .store _ _ ⟨rfl, rfl, rfl, rfl⟩
  | load => cases h; exact .load _ _ ⟨rfl, rfl, rfl, rfl⟩
  | halt => cases h; exact .halt ⟨rfl, rfl, rfl, rfl⟩ rfl
  | _ => cases h; exact .result _ _ _ _ _ ⟨rfl, rfl, rfl, rfl⟩

/-! ### Everything a state operation leaves unchanged -/

theorem SameMemory.of_eq {s t : State} (hm : t.mem = s.mem) (ht : t.memTouched = s.memTouched) : SameMemory s t :=
  ⟨fun a => by rw [hm], ht⟩

theorem SameRegs.of_eq {s t : State} (h : t.regs = s.regs) : SameRegs s t := fun r => by
  rw [State.reg, State.reg, h]

/-- R43, R88, R89: what a checked store leaves as it was. -/
@[simp] theorem checkedStore_regs (a v : Word) (s : State) : (checkedStore a v s).regs = s.regs := by
  rcases checkedStore_cases a v s with ⟨_, h⟩ | ⟨_, h⟩ <;> rw [h] <;> rfl
@[simp] theorem checkedStore_pc (a v : Word) (s : State) : (checkedStore a v s).pc = s.pc := by
  rcases checkedStore_cases a v s with ⟨_, h⟩ | ⟨_, h⟩ <;> rw [h] <;> rfl
@[simp] theorem checkedStore_flags (a v : Word) (s : State) : (checkedStore a v s).flags = s.flags := by
  rcases checkedStore_cases a v s with ⟨_, h⟩ | ⟨_, h⟩ <;> rw [h] <;> rfl
theorem checkedStore_sameStack (a v : Word) (s : State) : SameStack s (checkedStore a v s) := by
  rcases checkedStore_cases a v s with ⟨_, h⟩ | ⟨_, h⟩ <;> rw [h] <;> exact ⟨rfl, rfl, rfl⟩

/-- R43, R90: what a checked load leaves as it was. -/
@[simp] theorem checkedLoad_pc (rd : Reg) (a : Word) (s : State) : (checkedLoad rd a s).pc = s.pc := by
  rcases checkedLoad_cases rd a s with ⟨_, h⟩ | ⟨_, h⟩ <;> rw [h] <;> rfl
@[simp] theorem checkedLoad_flags (rd : Reg) (a : Word) (s : State) : (checkedLoad rd a s).flags = s.flags := by
  rcases checkedLoad_cases rd a s with ⟨_, h⟩ | ⟨_, h⟩ <;> rw [h] <;> rfl
theorem checkedLoad_sameMemory (rd : Reg) (a : Word) (s : State) : SameMemory s (checkedLoad rd a s) := by
  rcases checkedLoad_cases rd a s with ⟨_, h⟩ | ⟨_, h⟩ <;> rw [h] <;> exact .of_eq rfl rfl
theorem checkedLoad_sameStack (rd : Reg) (a : Word) (s : State) : SameStack s (checkedLoad rd a s) := by
  rcases checkedLoad_cases rd a s with ⟨_, h⟩ | ⟨_, h⟩ <;> rw [h] <;> exact ⟨rfl, rfl, rfl⟩

/-- R90: a checked load writes no register but its own. -/
theorem checkedLoad_regsBut (rd : Reg) (a : Word) (s : State) : SameRegsBut rd s (checkedLoad rd a s) := by
  intro r hr
  rcases checkedLoad_cases rd a s with ⟨_, h⟩ | ⟨_, h⟩
  · rw [h, setReg_reg_other s rd _ r hr]
  · rw [h, emit_reg]

/-- R42, R46: a checked store changes no byte but the two of its word, and none at an invalid address. -/
theorem checkedStore_bytes {s : State} (hwf : s.mem.wf = true) (a v : Word) :
    (∀ x : Nat, x ≠ a.toNat → x ≠ a.toNat + 1 → (checkedStore a v s).mem.readByte x = s.mem.readByte x) ∧
      ((a.toNat % 2 = 1 ∨ 0x0800 ≤ a.toNat) → SameMemory s (checkedStore a v s)) := by
  rcases checkedStore_cases a v s with ⟨hv, h⟩ | ⟨_, h⟩ <;> rw [h]
  · obtain ⟨heven, hlt⟩ := (validDataAddr_iff a).1 hv
    refine ⟨fun x h0 h1 => ?_, fun hbad => absurd hbad (by omega)⟩
    rw [storeWord_mem, readByte_writeWord hwf v hlt, wordBase_even heven, if_neg h1, if_neg h0]
  · exact ⟨fun _ _ _ => rfl, fun _ => .of_eq rfl rfl⟩

/-! ### The frames of every instruction -/

/-- Settles O35: an answer writes at most the register that its tables name. -/
theorem registerFrame : Obligations.RegisterFrame := by
  unfold Obligations.RegisterFrame
  intro i s t h r hr
  have other {rd : Reg} (hd : destOf i = some rd) : r ≠ rd := fun e => hr (by rw [hd, e])
  cases exec_effect h with
  | result rd v a b k tables => exact (writeResult_reg ..).trans (if_neg (other tables.dest_eq))
  | flags => rfl
  | jump => rfl
  | move rd v tables => exact setReg_reg_other s rd v r (other tables.dest_eq)
  | store a v => exact SameRegs.of_eq (checkedStore_regs a v s) r
  | load rd a tables => exact checkedLoad_regsBut rd a s r (other tables.dest_eq)
  | push rn v _ _ _ hpush =>
    obtain ⟨-, -, -, -, -, -, hregs, -⟩ := push_frame hpush
    exact SameRegs.of_eq hregs r
  | pop rd v u tables _ hpop =>
    obtain ⟨-, -, -, -, -, -, hregs, -⟩ := pop_frame hpop
    exact (setReg_reg_other u rd v r (other tables.dest_eq)).trans (SameRegs.of_eq hregs r)
  | report => rfl
  | halt => rfl

/-- R93: the flag unit never sets Z and S together. -/
theorem computeFlags_not_zero_and_sign (r a b : Word) (k : FlagKind) :
    ¬((computeFlags r a b k).zero = true ∧ (computeFlags r a b k).sign = true) := fun ⟨hz, hs⟩ =>
  Bool.false_ne_true ((computeFlags_exclusive r a b k hz).symm.trans hs)

/-- Settles O36: flags are written by the flag unit alone. -/
theorem flagFrame : Obligations.FlagFrame := by
  unfold Obligations.FlagFrame
  intro i s t h
  have silent (hf : writesFlags i = false) (ht : t.flags = s.flags) :
      (writesFlags i = false → t.flags = s.flags) ∧
        (writesFlags i = true → ¬(t.flags.zero = true ∧ t.flags.sign = true)) :=
    ⟨fun _ => ht, fun hf' => absurd (hf.symm.trans hf') Bool.false_ne_true⟩
  cases exec_effect h with
  | result rd r a b k tables =>
    exact ⟨fun hf => absurd (hf.symm.trans tables.flags_eq) Bool.false_ne_true,
      fun _ => computeFlags_not_zero_and_sign r a b k⟩
  | flags r a b k tables =>
    exact ⟨fun hf => absurd (hf.symm.trans tables.flags_eq) Bool.false_ne_true,
      fun _ => computeFlags_not_zero_and_sign r a b k⟩
  | jump _ tables => exact silent tables.flags_eq rfl
  | move _ _ tables => exact silent tables.flags_eq rfl
  | store a v tables => exact silent tables.flags_eq (checkedStore_flags a v s)
  | load rd a tables => exact silent tables.flags_eq (checkedLoad_flags rd a s)
  | push _ _ _ tables _ hpush =>
    obtain ⟨-, hflags, -⟩ := push_frame hpush
    exact silent tables.flags_eq hflags
  | pop _ _ _ tables _ hpop =>
    obtain ⟨-, hflags, -⟩ := pop_frame hpop
    exact silent tables.flags_eq hflags
  | report tables => exact silent tables.flags_eq rfl
  | halt tables => exact silent tables.flags_eq rfl

/-- Settles O37: memory is written by the checked store alone, at the instruction's store target. -/
theorem memoryFrame : Obligations.MemoryFrame := by
  unfold Obligations.MemoryFrame
  intro i s t hwf h
  have silent (hn : storeTarget i s = none) (same : SameMemory s t) :
      (storeTarget i s = none → SameMemory s t) ∧
        ∀ a : Word, storeTarget i s = some a →
          (∀ x : Nat, x ≠ a.toNat → x ≠ a.toNat + 1 → t.mem.readByte x = s.mem.readByte x) ∧
            ((a.toNat % 2 = 1 ∨ 0x0800 ≤ a.toNat) → SameMemory s t) :=
    ⟨fun _ => same, fun a ha => absurd (hn.symm.trans ha) nofun⟩
  cases exec_effect h with
  | result _ _ _ _ _ tables => exact silent tables.target_eq (.of_eq rfl rfl)
  | flags _ _ _ _ tables => exact silent tables.target_eq (.of_eq rfl rfl)
  | jump _ tables => exact silent tables.target_eq (.of_eq rfl rfl)
  | move _ _ tables => exact silent tables.target_eq (.of_eq rfl rfl)
  | store a v tables =>
    refine ⟨fun hn => absurd (hn.symm.trans tables.target_eq) nofun, fun b hb => ?_⟩
    obtain rfl : a = b := Option.some.inj (tables.target_eq.symm.trans hb)
    exact checkedStore_bytes hwf a v
  | load rd a tables => exact silent tables.target_eq (checkedLoad_sameMemory rd a s)
  | push _ _ _ tables _ hpush =>
    obtain ⟨-, -, -, -, -, -, -, hmem, htouched, -⟩ := push_frame hpush
    exact silent tables.target_eq (.of_eq hmem htouched)
  | pop _ _ _ tables _ hpop =>
    obtain ⟨-, -, -, -, -, -, -, hmem, htouched, -⟩ := pop_frame hpop
    exact silent tables.target_eq (.of_eq hmem htouched)
  | report tables => exact silent tables.target_eq (.of_eq rfl rfl)
  | halt tables => exact silent tables.target_eq (.of_eq rfl rfl)

/-- Settles O38: only the stack unit writes SP and the stack. -/
theorem stackFrame : Obligations.StackFrame := by
  unfold Obligations.StackFrame
  intro i s t h hpush hpop
  cases exec_effect h with
  | store a v => exact checkedStore_sameStack a v s
  | load rd a => exact checkedLoad_sameStack rd a s
  | push rn _ _ _ hi => exact absurd hi (hpush rn)
  | pop rd _ _ _ hi => exact absurd hi (hpop rd)
  | _ => exact ⟨rfl, rfl, rfl⟩

/-! ### PC and the event list after every instruction -/

/-- R80, R120: an instruction leaves PC at its own address, or writes the branch target if it is a taken jump. -/
theorem exec_pc {i : Instr} {s t : State} (h : exec i s = .next t) :
    t.pc = (takenJump i s.flags).elim s.pc (branchWrite s.pc) := by
  cases exec_effect h with
  | jump j tables => rw [tables.jump_eq, setPc_pc]
  | store a v tables => rw [tables.jump_eq, checkedStore_pc]; rfl
  | load rd a tables => rw [tables.jump_eq, checkedLoad_pc]; rfl
  | push _ _ _ tables _ hpush => rw [tables.jump_eq, (push_frame hpush).1]; rfl
  | pop _ _ _ tables _ hpop => rw [tables.jump_eq, setReg_pc, (pop_frame hpop).1]; rfl
  | result _ _ _ _ _ tables => rw [tables.jump_eq]; rfl
  | flags _ _ _ _ tables => rw [tables.jump_eq]; rfl
  | move _ _ tables => rw [tables.jump_eq]; rfl
  | report tables => rw [tables.jump_eq]; rfl
  | halt tables => rw [tables.jump_eq]; rfl

/-- R34, R131: the event list is as it was, or longer by one event. -/
def AtMostOneEvent (s t : State) : Prop := t.events = s.events ∨ ∃ e, t.events = s.events ++ [e]

theorem push_events {v : Word} {s t : State} (h : push v s = .next t) : AtMostOneEvent s t := by
  rcases push_next h with ⟨_, rfl⟩ | ⟨_, j, _, rfl⟩
  · exact .inr ⟨_, rfl⟩
  · exact .inl rfl

theorem pop_events {v : Word} {s u : State} (h : pop s = .next (v, u)) : AtMostOneEvent s u := by
  rcases pop_next h with ⟨_, _, rfl⟩ | ⟨_, j, _, _, rfl⟩
  · exact .inr ⟨_, rfl⟩
  · exact .inl rfl

theorem exec_events {i : Instr} {s t : State} (h : exec i s = .next t) : AtMostOneEvent s t := by
  cases exec_effect h with
  | store a v =>
    rcases checkedStore_cases a v s with ⟨_, hc⟩ | ⟨_, hc⟩ <;> rw [hc]
    · exact .inl rfl
    · exact .inr ⟨_, rfl⟩
  | load rd a =>
    rcases checkedLoad_cases rd a s with ⟨_, hc⟩ | ⟨_, hc⟩ <;> rw [hc]
    · exact .inl rfl
    · exact .inr ⟨_, rfl⟩
  | push _ _ _ _ _ hpush => exact push_events hpush
  | pop _ _ _ _ _ hpop => exact (pop_events hpop : AtMostOneEvent s _)
  | report => exact .inr ⟨_, rfl⟩
  | halt => exact .inr ⟨_, rfl⟩
  | _ => exact .inl rfl

end Sys2Proof.Machine
end

section
/-! Settles the machine's invariant (O55, O56), the stack laws (O41) and progress (O57). The invariant falls into a
part about memory, a part about the stack, IR and the flags; each part is carried over the few ways in which an
instruction can write that piece of state, and then over the clock edge. -/

namespace Sys2Proof.Machine

/-! ### The two ways to change memory, the three to change the stack -/

/-- R38, R42: an instruction leaves memory as it is, or stores one word at a valid address. -/
theorem exec_memory {i : Instr} {s t : State} (h : exec i s = .next t) :
    (t.mem = s.mem ∧ t.memTouched = s.memTouched) ∨
      ∃ a v : Word, a.toNat < 2048 ∧ t.mem = s.mem.writeWord a v ∧
        t.memTouched = touch s.memTouched (a.toNat / 2) := by
  cases exec_effect h with
  | store a v =>
    rcases checkedStore_cases a v s with ⟨hv, hc⟩ | ⟨_, hc⟩ <;> rw [hc]
    · exact .inr ⟨a, v, ((validDataAddr_iff a).1 hv).2, rfl, rfl⟩
    · exact .inl ⟨rfl, rfl⟩
  | load rd a =>
    rcases checkedLoad_cases rd a s with ⟨_, hc⟩ | ⟨_, hc⟩ <;> rw [hc] <;> exact .inl ⟨rfl, rfl⟩
  | push _ _ _ _ _ hpush =>
    obtain ⟨-, -, -, -, -, -, -, hmem, htouched, -⟩ := push_frame hpush
    exact .inl ⟨hmem, htouched⟩
  | pop _ _ _ _ _ hpop =>
    obtain ⟨-, -, -, -, -, -, -, hmem, htouched, -⟩ := pop_frame hpop
    exact .inl ⟨hmem, htouched⟩
  | _ => exact .inl ⟨rfl, rfl⟩

/-- R48: a push of `v` on a stack with room. -/
def PushesCell (v : Word) (s t : State) : Prop :=
  0x8000 < s.sp.toNat ∧ ∃ j : Fin 256, j.val = (0x8200 - s.sp.toNat) / 2 ∧
    t.sp.toNat = s.sp.toNat - 2 ∧ (∀ k, t.stack.get k = if k = j then v else s.stack.get k) ∧
    t.stackTouched = touch s.stackTouched j.val

/-- R49: a pop from a stack that is not empty. -/
def PopsCell (s t : State) : Prop :=
  s.sp.toNat < 0x8200 ∧ t.sp.toNat = s.sp.toNat + 2 ∧ t.stack = s.stack ∧ t.stackTouched = s.stackTouched

/-- R47: with a legal SP the stack is full exactly at its floor. -/
theorem stackDepth_eq_256_iff {sp : Word} (hlo : 0x8000 ≤ sp.toNat) (hhi : sp.toNat ≤ 0x8200) :
    stackDepth sp = 256 ↔ sp.toNat = 0x8000 := by
  show (0x8200 - sp.toNat) / 2 = 256 ↔ _
  omega

theorem push_stack {v : Word} {s t : State} (hl : SpLegal s) (h : push v s = .next t) :
    SameStack s t ∨ PushesCell v s t := by
  obtain ⟨heven, hlo, hhi⟩ := hl
  rcases push_next h with ⟨_, rfl⟩ | ⟨hd, j, hj, rfl⟩
  · exact .inl ⟨rfl, rfl, rfl⟩
  · rw [Ne, stackDepth_eq_256_iff hlo hhi] at hd
    have hsub := sp_sub_two (sp := s.sp) (by omega)
    obtain ⟨-, -, -, hidx⟩ := (stackIndex_eq_some _ j).1 hj
    exact .inr ⟨by omega, j, by omega, hsub, storeStack_get _ j v, rfl⟩

theorem pop_stack {v : Word} {s u : State} (h : pop s = .next (v, u)) : SameStack s u ∨ PopsCell s u := by
  rcases pop_next h with ⟨_, _, rfl⟩ | ⟨hlt, j, _, _, rfl⟩
  · exact .inl ⟨rfl, rfl, rfl⟩
  · exact .inr ⟨hlt, sp_add_two (by omega), rfl, rfl⟩

/-- R48, R49: an instruction leaves the stack as it is, pushes a cell or pops one. -/
theorem exec_stack {i : Instr} {s t : State} (hl : SpLegal s) (h : exec i s = .next t) :
    SameStack s t ∨ (∃ v, PushesCell v s t) ∨ PopsCell s t := by
  cases exec_effect h with
  | push _ v _ _ _ hpush => exact (push_stack hl hpush).imp_right fun hcell => .inl ⟨v, hcell⟩
  | pop _ _ u _ _ hpop => exact (pop_stack hpop : SameStack s u ∨ PopsCell s u).imp_right .inr
  | store a v => exact .inl (checkedStore_sameStack a v s)
  | load rd a => exact .inl (checkedLoad_sameStack rd a s)
  | _ => exact .inl ⟨rfl, rfl, rfl⟩

/-! ### The parts of the invariant -/

/-- The part of the invariant about memory. -/
structure MemoryInv (s : State) : Prop where
  wf : s.mem.wf = true
  untouched : ∀ a : Nat, a < 2048 → s.memTouched.getLsbD (a / 2) = false → s.mem.readByte a = 0xFF#8

/-- The part of the invariant about the stack. -/
structure StackInv (s : State) : Prop where
  legal : SpLegal s
  untouched : ∀ j : Fin 256, s.stackTouched.getLsbD j.val = false → s.stack.get j = 0#16
  live : ∀ j : Nat, j < stackDepth s.sp → s.stackTouched.getLsbD j = true

theorem Inv.memoryInv {s : State} (h : Inv s) : MemoryInv s := ⟨h.memWf, h.untouchedMemory⟩

theorem Inv.stackInv {s : State} (h : Inv s) : StackInv s := ⟨h.spLegal, h.untouchedStack, h.liveTouched⟩

theorem Inv.of_parts {s : State} (hm : MemoryInv s) (hs : StackInv s) (hir : s.ir ≠ 0xFFFF#16)
    (hf : s.flags.zero = true → s.flags.sign = false) : Inv s :=
  ⟨hm.wf, hs.legal, hir, hf, hm.untouched, hs.untouched, hs.live⟩

theorem MemoryInv.congr {s t : State} (h : MemoryInv s) (hmem : t.mem = s.mem)
    (htouched : t.memTouched = s.memTouched) : MemoryInv t :=
  ⟨hmem ▸ h.wf, fun a ha hu => by rw [hmem]; exact h.untouched a ha (htouched ▸ hu)⟩

theorem SpLegal.congr {s t : State} (h : SpLegal s) (hsp : t.sp = s.sp) : SpLegal t := by
  rw [SpLegal, hsp]
  exact h

theorem StackInv.congr {s t : State} (h : StackInv s) (same : SameStack s t) : StackInv t := by
  obtain ⟨hsp, hstack, htouched⟩ := same
  refine ⟨h.legal.congr hsp, ?_, ?_⟩
  · rw [hstack, htouched]; exact h.untouched
  · rw [hsp, htouched]; exact h.live

/-- The invariant does not speak of registers, PC, RUN, the record count, the outputs and the inputs. -/
theorem Inv.congr {s t : State} (h : Inv s) (hmem : t.mem = s.mem) (htouched : t.memTouched = s.memTouched)
    (hstack : SameStack s t) (hir : t.ir = s.ir) (hflags : t.flags = s.flags) : Inv t :=
  .of_parts (h.memoryInv.congr hmem htouched) (h.stackInv.congr hstack) (hir ▸ h.irNotSentinel)
    (hflags ▸ h.flagsExclusive)

/-- R28: a cell that a store leaves untouched is another cell, so it still reads the fill. -/
theorem MemoryInv.writeWord {s t : State} (h : MemoryInv s) {a v : Word} (ha : a.toNat < 2048)
    (hmem : t.mem = s.mem.writeWord a v) (htouched : t.memTouched = touch s.memTouched (a.toNat / 2)) :
    MemoryInv t := by
  refine ⟨by rw [hmem]; exact wf_writeWord h.wf v ha, fun x hx hu => ?_⟩
  rw [htouched, touch_getLsbD _ (by omega), Bool.or_eq_false_iff, decide_eq_false_iff_not] at hu
  obtain ⟨hold, hcell⟩ := hu
  have hlow : x ≠ wordBase a := by unfold wordBase; omega
  have hhigh : x ≠ wordBase a + 1 := by unfold wordBase; omega
  rw [hmem, readByte_writeWord h.wf v ha, if_neg hhigh, if_neg hlow]
  exact h.untouched x hx hold

/-- R47, R48: the pushed cell is touched, and it is the one more that is live. -/
theorem StackInv.push {s t : State} {v : Word} (h : StackInv s) (hcell : PushesCell v s t) : StackInv t := by
  obtain ⟨heven, hlo, hhi⟩ := h.legal
  obtain ⟨hroom, j, hj, hsp, hget, htouched⟩ := hcell
  refine ⟨⟨by omega, by omega, by omega⟩, fun k hk => ?_, fun k hk => ?_⟩
  · rw [htouched, touch_getLsbD _ j.isLt, Bool.or_eq_false_iff, decide_eq_false_iff_not] at hk
    obtain ⟨hold, hne⟩ := hk
    rw [hget, if_neg fun e => hne (congrArg Fin.val e)]
    exact h.untouched k hold
  · have hdepth : k < (0x8200 - t.sp.toNat) / 2 := hk
    rw [htouched, touch_getLsbD_iff _ j.isLt]
    by_cases hkj : k = j.val
    · exact .inr hkj
    · refine .inl (h.live k ?_)
      show k < (0x8200 - s.sp.toNat) / 2
      omega

/-- R47, R49: a pop leaves one cell fewer live. -/
theorem StackInv.pop {s t : State} (h : StackInv s) (hcell : PopsCell s t) : StackInv t := by
  obtain ⟨heven, hlo, hhi⟩ := h.legal
  obtain ⟨hne, hsp, hstack, htouched⟩ := hcell
  refine ⟨⟨by omega, by omega, by omega⟩, ?_, fun k hk => ?_⟩
  · rw [hstack, htouched]; exact h.untouched
  · have hdepth : k < (0x8200 - t.sp.toNat) / 2 := hk
    rw [htouched]
    refine h.live k ?_
    show k < (0x8200 - s.sp.toNat) / 2
    omega

/-! ### Every instruction keeps it -/

theorem exec_memoryInv {i : Instr} {s t : State} (hi : MemoryInv s) (h : exec i s = .next t) : MemoryInv t := by
  rcases exec_memory h with ⟨hmem, htouched⟩ | ⟨a, v, ha, hmem, htouched⟩
  · exact hi.congr hmem htouched
  · exact hi.writeWord ha hmem htouched

theorem exec_stackInv {i : Instr} {s t : State} (hi : StackInv s) (h : exec i s = .next t) : StackInv t := by
  rcases exec_stack hi.legal h with same | ⟨v, hcell⟩ | hcell
  · exact hi.congr same
  · exact hi.push hcell
  · exact hi.pop hcell

/-- R93: flags are kept, or written by the flag unit. -/
theorem exec_flagsExclusive {i : Instr} {s t : State} (hi : s.flags.zero = true → s.flags.sign = false)
    (h : exec i s = .next t) : t.flags.zero = true → t.flags.sign = false := by
  obtain ⟨hkept, hwritten⟩ := flagFrame i s t h
  cases hf : writesFlags i with
  | false => rw [hkept hf]; exact hi
  | true => exact fun hz => Bool.eq_false_iff.2 fun hs => hwritten hf ⟨hz, hs⟩

theorem exec_inv {i : Instr} {s t : State} (hi : Inv s) (h : exec i s = .next t) : Inv t := by
  obtain ⟨-, hir, -, -⟩ := exec_control h
  exact .of_parts (exec_memoryInv hi.memoryInv h) (exec_stackInv hi.stackInv h) (hir ▸ hi.irNotSentinel)
    (exec_flagsExclusive hi.flagsExclusive h)

/-! ### Every clock edge keeps it -/

/-- R29: IR takes a word that is not the sentinel. -/
theorem Inv.setIr {s : State} (h : Inv s) {w : Word} (hw : w ≠ 0xFFFF#16) : Inv (s.setIr w) :=
  .of_parts (h.memoryInv.congr rfl rfl) (h.stackInv.congr ⟨rfl, rfl, rfl⟩) hw h.flagsExclusive

theorem Inv.stop {s : State} (h : Inv s) (r : RunState) (c : EventCode) (d : Word) : Inv (s.stop r c d) :=
  h.congr rfl rfl ⟨rfl, rfl, rfl⟩ rfl rfl

theorem loadRecord_inv {s : State} (h : Inv s) (a w : Word) : Inv (loadRecord a w s) := by
  rcases loadRecord_cases a w s with ⟨hv, hc⟩ | ⟨_, hc⟩ <;> rw [hc]
  · exact .of_parts (h.memoryInv.writeWord ((validDataAddr_iff a).1 hv).2 rfl rfl)
      (h.stackInv.congr ⟨rfl, rfl, rfl⟩) h.irNotSentinel h.flagsExclusive
  · exact h.congr rfl rfl ⟨rfl, rfl, rfl⟩ rfl rfl

theorem startCore_inv {s : State} (h : Inv s) : Inv (startCore s) := by
  rcases startCore_cases s with ⟨_, hc⟩ | ⟨_, hc⟩ <;> rw [hc] <;>
    exact h.congr rfl rfl ⟨rfl, rfl, rfl⟩ rfl rfl

theorem idleEdge_inv {s : State} (h : Inv s) (a : HostAction) : Inv (idleEdge a s) := by
  cases a with
  | noAction => exact h
  | rst => exact h
  | loadRecord addr word => exact loadRecord_inv h addr word
  | start => exact startCore_inv h

theorem runWord_inv {s t : State} {w : Word} (hi : Inv s) (h : runWord w s = .next t) : Inv t := by
  rcases runWord_next h with ⟨_, _, rfl⟩ | ⟨i, u, _, hu, rfl⟩
  · exact hi.stop _ _ _
  · exact (exec_inv hi hu).congr rfl rfl ⟨rfl, rfl, rfl⟩ rfl rfl

theorem sequencerStep_inv {s t : State} (hi : Inv s) (h : sequencerStep s = .next t) : Inv t := by
  rcases sequencerStep_next h with ⟨_, rfl⟩ | ⟨_, _, rfl⟩ | ⟨_, hw, hrun⟩
  · exact hi.stop _ _ _
  · exact hi.stop _ _ _
  · exact runWord_inv (hi.setIr hw) hrun

/-- Settles O55: reset clears every touched bit, empties the stack and leaves memory unlisted. -/
theorem resetInv : Obligations.ResetInv := by
  unfold Obligations.ResetInv
  refine ⟨reset_mem_wf, ?legal, ?ir, nofun, fun a _ _ => reset_readByte a, fun j _ => ?empty, fun j hj => ?live⟩
  case legal => unfold SpLegal; decide
  case ir => decide
  case empty => simp [State.reset]
  case live => exact absurd hj (Nat.not_lt_zero j)

/-- Settles O56: reset makes the invariant anew, the load interface and the sequencer keep it, and outside these
an edge changes nothing but the host's list. -/
theorem invStep : Obligations.InvStep := by
  unfold Obligations.InvStep
  intro s t hi h
  have hi' : Inv (s.setInputs s.inputs.tail) := hi.congr rfl rfl ⟨rfl, rfl, rfl⟩ rfl rfl
  rcases clockEdge_next h with ⟨_, _, rfl⟩ | ⟨_, _, rfl⟩ | ⟨_, _, hseq⟩ | ⟨_, _, _, rfl⟩
  · exact resetInv.congr rfl rfl ⟨rfl, rfl, rfl⟩ rfl rfl
  · exact idleEdge_inv hi' _
  · exact sequencerStep_inv hi' hseq
  · exact hi'

/-! ### The stack laws (R51) -/

theorem exec_spLegal {i : Instr} {s t : State} (hl : SpLegal s) (h : exec i s = .next t) : SpLegal t := by
  rcases exec_stack hl h with ⟨hsp, -, -⟩ | ⟨v, hroom, j, -, hsp, -⟩ | ⟨hne, hsp, -, -⟩
  · exact hl.congr hsp
  · obtain ⟨heven, hlo, hhi⟩ := hl
    exact ⟨by omega, by omega, by omega⟩
  · obtain ⟨heven, hlo, hhi⟩ := hl
    exact ⟨by omega, by omega, by omega⟩

theorem idleEdge_sp (a : HostAction) (s : State) : (idleEdge a s).sp = s.sp := by
  cases a with
  | noAction => rfl
  | rst => rfl
  | loadRecord addr word =>
    rcases loadRecord_cases addr word s with ⟨_, h⟩ | ⟨_, h⟩ <;> exact (congrArg State.sp h).trans rfl
  | start => rcases startCore_cases s with ⟨_, h⟩ | ⟨_, h⟩ <;> exact (congrArg State.sp h).trans rfl

theorem sequencerStep_spLegal {s t : State} (hl : SpLegal s) (h : sequencerStep s = .next t) : SpLegal t := by
  rcases sequencerStep_next h with ⟨_, rfl⟩ | ⟨_, _, rfl⟩ | ⟨_, _, hrun⟩
  · exact hl.congr rfl
  · exact hl.congr rfl
  · rcases runWord_next hrun with ⟨_, _, rfl⟩ | ⟨i, u, _, hu, rfl⟩
    · exact hl.congr rfl
    · have hl' : SpLegal (s.setIr (fetchWord s)) := hl.congr rfl
      exact (exec_spLegal hl' hu).congr rfl

theorem step_spLegal {s t : State} (hl : SpLegal s) (h : step s = .next t) : SpLegal t := by
  have hl' : SpLegal (s.setInputs s.inputs.tail) := hl.congr rfl
  rcases clockEdge_next h with ⟨_, _, rfl⟩ | ⟨_, _, rfl⟩ | ⟨_, _, hseq⟩ | ⟨_, _, _, rfl⟩
  · exact resetInv.spLegal.congr rfl
  · exact hl'.congr (idleEdge_sp _ _)
  · exact sequencerStep_spLegal hl' hseq
  · exact hl'

/-- R51: a pop takes what a push on a stack with room has stored. -/
theorem push_pop {s : State} (hl : SpLegal s) (hroom : s.sp.toNat ≠ 0x8000) (v : Word) :
    ∃ t u, push v s = .next t ∧ pop t = .next (v, u) ∧ u.sp = s.sp := by
  obtain ⟨heven, hlo, hhi⟩ := hl
  obtain ⟨j, -, hj, hpush⟩ := push_room (v := v) heven (by omega) hhi
  have hsub := sp_sub_two (sp := s.sp) (by omega)
  have hne : ¬ Config.stackBase.toNat ≤ (s.sp - 2#16).toNat := by
    rw [hsub]
    exact Nat.not_le.2 (by omega : s.sp.toNat - 2 < 0x8200)
  refine ⟨_, ((s.setSp (s.sp - 2#16)).storeStack j v).setSp (s.sp - 2#16 + 2#16), hpush, ?_,
    BitVec.sub_add_cancel _ _⟩
  simp only [pop, storeStack_sp, setSp_sp, hne, if_false, hj, storeStack_get, if_true]

/-- Settles O41: a push then a pop, the two ends of the stack, and the legal SP over every clock edge. -/
theorem stackLaws : Obligations.StackLaws := by
  unfold Obligations.StackLaws
  refine ⟨fun v s hl hroom => push_pop hl hroom v, fun v s hfull => ?full, fun s hempty => ?empty,
    fun s t => step_spLegal⟩
  case full => exact ⟨_, push_full hfull, ⟨rfl, rfl, rfl⟩, rfl⟩
  case empty => exact ⟨_, pop_empty (Nat.le_of_eq hempty.symm), ⟨rfl, rfl, rfl⟩, rfl⟩

/-! ### Progress -/

theorem push_progress {s : State} (hl : SpLegal s) (v : Word) : ∃ t, push v s = .next t := by
  obtain ⟨heven, hlo, hhi⟩ := hl
  by_cases hfull : s.sp.toNat = 0x8000
  · exact ⟨_, push_full hfull⟩
  · obtain ⟨j, -, -, h⟩ := push_room (v := v) heven (by omega) hhi
    exact ⟨_, h⟩

theorem pop_progress {s : State} (hl : SpLegal s) : ∃ p, pop s = .next p := by
  obtain ⟨heven, hlo, hhi⟩ := hl
  by_cases hempty : 0x8200 ≤ s.sp.toNat
  · exact ⟨_, pop_empty hempty⟩
  · obtain ⟨j, -, h⟩ := pop_cell heven hlo (by omega)
    exact ⟨_, h⟩

/-- Only the stack unit can fault, and not at a legal SP. -/
theorem exec_progress {s : State} (hl : SpLegal s) (i : Instr) : ∃ t, exec i s = .next t := by
  cases i with
  | push rn => exact push_progress hl (s.reg rn)
  | pop rd =>
    obtain ⟨p, hp⟩ := pop_progress hl
    exact ⟨p.2.setReg rd p.1, by simp only [exec, execPop, hp, andThen_of_next]⟩
  | _ => exact ⟨_, rfl⟩

theorem sequencerStep_progress {s : State} (hl : SpLegal s) : ∃ t, sequencerStep s = .next t := by
  by_cases hp : s.pc.toNat < 2048
  · by_cases hw : fetchWord s = 0xFFFF#16
    · exact ⟨_, sequencerStep_sentinel hp hw⟩
    · rw [sequencerStep_word hp hw]
      cases hd : decode (fetchWord s) with
      | error e => exact ⟨_, runWord_illegal _ hd⟩
      | ok i =>
        obtain ⟨u, hu⟩ := exec_progress (s := s.setIr (fetchWord s)) (hl.congr rfl) i
        exact ⟨_, by rw [runWord_legal _ hd, hu, andThen_of_next]⟩
  · exact ⟨_, sequencerStep_range (Nat.le_of_not_lt hp)⟩

/-- Settles O57: every run state answers a next state, RUNNING since no instruction faults at a legal SP and the
host does not present `rst`. -/
theorem stepProgress : Obligations.StepProgress := by
  unfold Obligations.StepProgress
  intro s hl hhost
  by_cases hrst : s.inputs.head? = some .rst
  · exact ⟨_, step_reset (fun hr => hhost hr hrst) hrst⟩
  · cases hr : s.run with
    | idle => exact ⟨_, step_idle hr hrst⟩
    | running =>
      rw [step_running hr hrst]
      exact sequencerStep_progress (hl.congr rfl)
    | halted => exact ⟨_, step_terminal (.inl hr) hrst⟩
    | faulted => exact ⟨_, step_terminal (.inr (.inl hr)) hrst⟩
    | loadFailed => exact ⟨_, step_terminal (.inr (.inr hr)) hrst⟩

end Sys2Proof.Machine
end

section
/-! Settles O58. What a program can observe of a state is the state with IR, C, V, the touched bits, the events
and the reports blanked; two states agree on it exactly when they are `ProgramEq`. Every operation answers alike,
up to the blanked fields, on a state and on its blanked form; so it does on any two states that agree. -/

namespace Sys2Proof.Machine

/-- The state with everything blanked that a program cannot observe (R6, R21, R28, R29). -/
def State.visible (s : State) : State :=
  { s with
    ir := 0#16
    flags := ⟨s.flags.zero, s.flags.sign, false, false⟩
    memTouched := 0#1024
    stackTouched := 0#256
    events := []
    reports := [] }

/-- An answer as far as a program can observe it; a fault or a refusal as it is. -/
def seen (o : Host.Outcome State Fault Refusal) : Host.Outcome State Fault Refusal :=
  andThen o fun t => .next t.visible

theorem visible_eq_iff (s t : State) : s.visible = t.visible ↔ ProgramEq s t := by
  constructor
  · intro h
    simp only [State.visible, State.mk.injEq, Flags.mk.injEq, true_and, and_true] at h
    obtain ⟨hregs, hpc, hsp, ⟨hzero, hsign⟩, hrun, hmem, hstack, haccepted, hinputs⟩ := h
    exact ⟨hregs, hpc, hsp, hzero, hsign, hrun, hmem, hstack, haccepted, hinputs⟩
  · intro h
    simp only [State.visible, h.regs, h.pc, h.sp, h.zero, h.sign, h.run, h.mem, h.stack, h.accepted, h.inputs]

@[simp] theorem visible_sp (s : State) : s.visible.sp = s.sp := rfl
@[simp] theorem visible_pc (s : State) : s.visible.pc = s.pc := rfl
@[simp] theorem visible_run (s : State) : s.visible.run = s.run := rfl
@[simp] theorem visible_accepted (s : State) : s.visible.accepted = s.accepted := rfl
@[simp] theorem visible_inputs (s : State) : s.visible.inputs = s.inputs := rfl
@[simp] theorem visible_fetchWord (s : State) : fetchWord s.visible = fetchWord s := rfl

/-! ### Each operation on a state and on its blanked form -/

theorem jumpIf_visible (b : Bool) (d : Int) (s : State) : (jumpIf b d s).visible = (jumpIf b d s.visible).visible := by
  cases b <;> rfl

theorem checkedStore_visible (a v : Word) (s : State) :
    (checkedStore a v s).visible = (checkedStore a v s.visible).visible := by
  unfold checkedStore
  split <;> rfl

theorem checkedLoad_visible (rd : Reg) (a : Word) (s : State) :
    (checkedLoad rd a s).visible = (checkedLoad rd a s.visible).visible := by
  unfold checkedLoad
  split <;> rfl

theorem push_visible (v : Word) (s : State) : seen (push v s) = seen (push v s.visible) := by
  unfold push
  rw [visible_sp]
  split
  · rfl
  · split <;> rfl

theorem execPop_visible (rd : Reg) (s : State) : seen (execPop rd s) = seen (execPop rd s.visible) := by
  unfold execPop pop
  rw [visible_sp]
  split
  · rfl
  · split <;> rfl

/-- No instruction reads what is blanked. -/
theorem exec_visible (i : Instr) (s : State) : seen (exec i s) = seen (exec i s.visible) := by
  cases i with
  | push rn => exact push_visible _ s
  | pop rd => exact execPop_visible rd s
  | jmp d => exact congrArg Host.Outcome.next (jumpIf_visible _ d s)
  | jeq d => exact congrArg Host.Outcome.next (jumpIf_visible _ d s)
  | jlt d => exact congrArg Host.Outcome.next (jumpIf_visible _ d s)
  | jgt d => exact congrArg Host.Outcome.next (jumpIf_visible _ d s)
  | store rm rn => exact congrArg Host.Outcome.next (checkedStore_visible _ _ s)
  | storei rd k => exact congrArg Host.Outcome.next (checkedStore_visible _ _ s)
  | load rd rm => exact congrArg Host.Outcome.next (checkedLoad_visible rd _ s)
  | _ => rfl

/-! ### The clock edge on a state and on its blanked form -/

/-- Operations that answer alike on a state and its blanked form answer alike on states that agree. -/
theorem seen_congr {f : State → Host.Outcome State Fault Refusal} (hf : ∀ s, seen (f s) = seen (f s.visible))
    {s s' : State} (h : s.visible = s'.visible) : seen (f s) = seen (f s') := by
  rw [hf s, h, ← hf s']

/-- R120: the advance of PC after an answer. -/
theorem seen_advance {o o' : Host.Outcome State Fault Refusal} (h : seen o = seen o') :
    seen (andThen o fun t => .next (advance t)) = seen (andThen o' fun t => .next (advance t)) := by
  have pull (o : Host.Outcome State Fault Refusal) :
      seen (andThen o fun t => .next (advance t)) = andThen (seen o) fun t => .next (advance t) := by
    cases o <;> rfl
  rw [pull, h, ← pull]

theorem runWord_visible (w : Word) (s : State) : seen (runWord w s) = seen (runWord w s.visible) := by
  unfold runWord
  split
  · rfl
  · exact seen_advance (exec_visible _ s)

theorem sequencerStep_visible (s : State) : seen (sequencerStep s) = seen (sequencerStep s.visible) := by
  have hir : (s.setIr (fetchWord s)).visible = (s.visible.setIr (fetchWord s)).visible := rfl
  unfold sequencerStep
  rw [visible_pc, visible_fetchWord]
  split
  · split
    · exact exec_visible .halt s
    · exact seen_congr (runWord_visible _) hir
  · rfl

theorem loadRecord_visible (a w : Word) (s : State) :
    (loadRecord a w s).visible = (loadRecord a w s.visible).visible := by
  unfold loadRecord
  split <;> rfl

theorem startCore_visible (s : State) : (startCore s).visible = (startCore s.visible).visible := by
  unfold startCore
  rw [visible_accepted]
  split <;> rfl

theorem idleEdge_visible (a : HostAction) (s : State) : (idleEdge a s).visible = (idleEdge a s.visible).visible := by
  cases a with
  | noAction => rfl
  | rst => rfl
  | loadRecord addr word => exact loadRecord_visible addr word s
  | start => exact startCore_visible s

theorem clockEdge_visible (a : HostAction) (s : State) : seen (clockEdge a s) = seen (clockEdge a s.visible) := by
  unfold clockEdge resetEdge
  rw [visible_run, visible_inputs]
  split
  · rfl
  · cases hr : s.run with
    | idle => exact congrArg Host.Outcome.next (idleEdge_visible a s)
    | running => exact sequencerStep_visible s
    | halted => rfl
    | faulted => rfl
    | loadFailed => rfl

theorem step_visible (s : State) : seen (step s) = seen (step s.visible) := by
  have hinputs : (s.setInputs s.inputs.tail).visible = (s.visible.setInputs s.inputs.tail).visible := rfl
  rw [step_eq, step_eq, visible_inputs]
  exact seen_congr (clockEdge_visible _) hinputs

theorem seen_eq_next {o : Host.Outcome State Fault Refusal} {t : State} (h : .next t.visible = seen o) :
    ∃ t', o = .next t' ∧ t.visible = t'.visible := by
  cases o with
  | next t' => exact ⟨t', rfl, Host.Outcome.next.inj h⟩
  | fault f => cases h
  | refused r => cases h

theorem seen_eq_fault {o : Host.Outcome State Fault Refusal} {f : Fault} (h : .fault f = seen o) :
    o = .fault f := by
  cases o with
  | next t => cases h
  | fault g => exact h.symm
  | refused r => cases h

theorem seen_eq_refused {o : Host.Outcome State Fault Refusal} {r : Refusal} (h : .refused r = seen o) :
    o = .refused r := by
  cases o with
  | next t => cases h
  | fault f => cases h
  | refused q => exact h.symm

/-- Settles O58: a step answers alike on a state and on what a program can observe of it. -/
theorem reportingStateUnobservable : Obligations.ReportingStateUnobservable := by
  unfold Obligations.ReportingStateUnobservable
  intro s s' heq
  have hstep : seen (step s) = seen (step s') := seen_congr step_visible ((visible_eq_iff s s').2 heq)
  refine ⟨fun t ht => ?next, fun f hf => ?fault, fun r hr => ?refused⟩
  case next =>
    rw [ht] at hstep
    obtain ⟨t', ht', hvisible⟩ := seen_eq_next hstep
    exact ⟨t', ht', (visible_eq_iff t t').1 hvisible⟩
  case fault =>
    rw [hf] at hstep
    exact seen_eq_fault hstep
  case refused =>
    rw [hr] at hstep
    exact seen_eq_refused hstep

end Sys2Proof.Machine
end

section
/-! Settles the statements about a running core's step (O28 to O34, O44) and the outputs (O45, O47). First what a
step is for an instruction other than HALT; then each statement, read off from that and from the list of all that
a running step can do. -/

namespace Sys2Proof.Machine

/-! ### The step that runs an instruction -/

/-- R65, R113: only the sentinel decodes to HALT. -/
theorem decode_eq_halt_iff (w : Word) : decode w = .ok .halt ↔ w = 0xFFFF#16 := by
  constructor
  · intro h
    exact (BitVec.and_allOnes (x := w)).symm.trans (row_of_decode h)
  · rintro rfl
    rfl

/-- R65, R76: only the zero word decodes to NOP. -/
theorem decode_eq_nop_iff (w : Word) : decode w = .ok .nop ↔ w = 0x0000#16 := by
  constructor
  · intro h
    exact (BitVec.and_allOnes (x := w)).symm.trans (row_of_decode h)
  · rintro rfl
    rfl

/-- R119, R120: an instruction other than HALT runs with IR written, and PC advances after its answer. -/
theorem step_instruction {s : State} {i : Instr} {o : Host.Outcome State Fault Refusal} (hr : s.run = .running)
    (hrst : s.inputs.head? ≠ some .rst) (hp : s.pc.toNat < 2048) (hd : decode (fetchWord s) = .ok i) (hi : i ≠ .halt)
    (ho : exec i ((s.setInputs s.inputs.tail).setIr (fetchWord s)) = o) :
    step s = andThen o fun t => .next (t.setPc (t.pc + 2#16)) := by
  have hw : fetchWord s ≠ 0xFFFF#16 := fun e =>
    hi (Except.ok.inj (hd.symm.trans ((decode_eq_halt_iff _).2 e)))
  rw [step_running hr hrst, ← ho]
  exact (sequencerStep_word (s := s.setInputs s.inputs.tail) hp hw).trans (runWord_legal _ hd)

/-- R117: the step at the sentinel. -/
theorem step_sentinel {s : State} (hr : s.run = .running) (hrst : s.inputs.head? ≠ some .rst)
    (hp : s.pc.toNat < 2048) (hw : fetchWord s = 0xFFFF#16) :
    step s = exec .halt { s with inputs := s.inputs.tail } := by
  rw [step_running hr hrst]
  exact sequencerStep_sentinel (s := s.setInputs s.inputs.tail) hp hw

/-- Settles O28: for each answer of the instruction, the step's. -/
theorem stepRunsDecodedInstruction : Obligations.StepRunsDecodedInstruction := by
  unfold Obligations.StepRunsDecodedInstruction
  intro s i hr hrst hp hd
  refine ⟨fun hi => ?other, fun hi => ?halt⟩
  case other =>
    exact ⟨fun t => step_instruction hr hrst hp hd hi, fun f => step_instruction hr hrst hp hd hi,
      fun r => step_instruction hr hrst hp hd hi⟩
  case halt =>
    rw [hi, decode_eq_halt_iff] at hd
    exact step_sentinel hr hrst hp hd

/-- Settles O29: the range test comes first and stops the core. -/
theorem pcRangeStop : Obligations.PcRangeStop := by
  unfold Obligations.PcRangeStop
  intro s hr hrst hp
  refine ⟨_, (step_running hr hrst).trans (sequencerStep_range hp), rfl, rfl, rfl, rfl, rfl, rfl, rfl, rfl,
    fun _ => rfl, .of_eq rfl rfl, rfl, rfl, rfl⟩

/-- Settles O30: the step at the sentinel is HALT's meaning, which writes neither IR nor PC. -/
theorem sentinelStop : Obligations.SentinelStop := by
  unfold Obligations.SentinelStop
  intro s hr hrst hp hw
  exact ⟨_, step_sentinel hr hrst hp hw, rfl, rfl, rfl, rfl⟩

/-- Settles O31: the step writes IR before it decodes, and an illegal word is no sentinel. -/
theorem fatalStop : Obligations.FatalStop := by
  unfold Obligations.FatalStop
  intro s e hr hrst hp hd
  have hw : fetchWord s ≠ 0xFFFF#16 := fun h => by
    rw [h] at hd
    cases hd
  have hstep : step s = .next (((s.setInputs s.inputs.tail).setIr (fetchWord s)).stop .faulted .decodeFatal
      (fetchWord s)) := by
    rw [step_running hr hrst]
    exact (sequencerStep_word (s := s.setInputs s.inputs.tail) hp hw).trans (runWord_illegal _ hd)
  exact ⟨_, hstep, rfl, rfl, rfl, rfl, rfl, rfl, rfl, rfl, fun _ => rfl, .of_eq rfl rfl, rfl, rfl, rfl⟩

/-! ### PC over a step -/

theorem add_two_toNat (pc : Word) : (pc + 2#16).toNat = (pc.toNat + 2) % 65536 := BitVec.toNat_add ..

/-- Settles O32: the instruction leaves PC or writes the branch target, and the sequencer adds 2. -/
theorem nextPc : Obligations.NextPc := by
  unfold Obligations.NextPc
  intro s u i hr hrst hp hd hi hu
  have hstep : step s = .next (u.setPc (u.pc + 2#16)) := step_instruction hr hrst hp hd hi hu
  have hpc : u.pc = (takenJump i s.flags).elim s.pc (branchWrite s.pc) := (exec_pc hu).trans rfl
  refine ⟨_, hstep, add_two_toNat u.pc, ?_⟩
  rw [setPc_pc, add_two_toNat]
  cases hj : takenJump i s.flags with
  | none =>
    rw [hj] at hpc
    have hpc' : u.pc = s.pc := hpc
    exact ⟨hpc', by rw [hpc']; omega⟩
  | some d =>
    rw [hj] at hpc
    have hpc' : u.pc = branchWrite s.pc d := hpc
    refine ⟨hpc', ?_⟩
    have htarget := branchWrite_toNat s.pc d
    rw [← hpc'] at htarget
    push_cast
    omega

/-- R37, R44: an odd address names the word of the even one below it. -/
theorem wordBase_sub_one {a : Word} (h : a.toNat % 2 = 1) : wordBase (a - 1#16) = wordBase a := by
  have hsub : (a - 1#16).toNat = a.toNat - 1 := by bv_omega
  unfold wordBase
  omega

/-- Settles O33: fetch drops the lowest bit of PC; the stops keep PC and the advance adds 2. -/
theorem oddFetch : Obligations.OddFetch := by
  unfold Obligations.OddFetch
  intro s hodd
  refine ⟨?fetch, fun t i hr hrst hp hd hj h => ?step⟩
  case fetch =>
    unfold fetchWord Memory.readWord
    rw [wordBase_sub_one hodd]
  case step =>
    rcases step_running_next hr h with ⟨hge, _⟩ | ⟨_, _, rfl⟩ | ⟨_, _, e, he, _⟩ | ⟨_, _, i', u, hd', hu, rfl⟩
    · exact absurd hp (Nat.not_lt.2 hge)
    · exact hodd
    · cases hd.symm.trans he
    · obtain rfl : i = i' := Except.ok.inj (hd.symm.trans hd')
      have hpc : u.pc = (takenJump i s.flags).elim s.pc (branchWrite s.pc) := (exec_pc hu).trans rfl
      rw [hj] at hpc
      have hpc' : u.pc = s.pc := hpc
      rw [setPc_pc, hpc', add_two_toNat]
      omega

/-- Settles O34: each of the four things a running step can do belongs to one run state. -/
theorem leavesRunning : Obligations.LeavesRunning := by
  unfold Obligations.LeavesRunning
  intro s t hr h
  rcases step_running_next hr h with ⟨hp, rfl⟩ | ⟨hp, hw, rfl⟩ | ⟨hp, hw, e, he, rfl⟩ | ⟨hp, hw, i, u, hd, hu, rfl⟩
  · have hlt : ¬ s.pc.toNat < 2048 := Nat.not_lt.2 hp
    exact ⟨iff_of_true rfl (.inl hp), iff_of_false nofun fun h => hlt h.1, iff_of_false nofun fun h => hlt h.1⟩
  · have hd := (decode_eq_halt_iff _).2 hw
    exact ⟨iff_of_true rfl (.inr hw), iff_of_false nofun fun ⟨_, e, he⟩ => (nomatch hd.symm.trans he),
      iff_of_false nofun fun ⟨_, hne, _⟩ => hne hw⟩
  · exact ⟨iff_of_false nofun fun h => h.elim (Nat.not_le.2 hp) hw, iff_of_true rfl ⟨hp, e, he⟩,
      iff_of_false nofun fun ⟨_, _, i, hd⟩ => (nomatch hd.symm.trans he)⟩
  · have hi : i ≠ .halt := fun e => hw ((decode_eq_halt_iff _).1 (e ▸ hd))
    have hrun : (u.setPc (u.pc + 2#16)).run = .running := ((exec_control hu).1 hi).trans hr
    rw [hrun]
    exact ⟨iff_of_false nofun fun h => h.elim (Nat.not_le.2 hp) hw,
      iff_of_false nofun fun ⟨_, e, he⟩ => (nomatch hd.symm.trans he), iff_of_true rfl ⟨hp, hw, i, hd⟩⟩

/-! ### Events over a step -/

theorem idleEdge_events (a : HostAction) (s : State) : AtMostOneEvent s (idleEdge a s) := by
  cases a with
  | noAction => exact .inl rfl
  | rst => exact .inl rfl
  | loadRecord addr word =>
    rcases loadRecord_cases addr word s with ⟨_, h⟩ | ⟨_, h⟩ <;> rw [idleEdge, h]
    · exact .inl rfl
    · exact .inr ⟨_, rfl⟩
  | start =>
    rcases startCore_cases s with ⟨_, h⟩ | ⟨_, h⟩ <;> rw [idleEdge, h]
    · exact .inr ⟨_, rfl⟩
    · exact .inl rfl

theorem sequencerStep_events {s t : State} (h : sequencerStep s = .next t) : AtMostOneEvent s t := by
  rcases sequencerStep_next h with ⟨_, rfl⟩ | ⟨_, _, rfl⟩ | ⟨_, _, hrun⟩
  · exact .inr ⟨_, rfl⟩
  · exact .inr ⟨_, rfl⟩
  · rcases runWord_next hrun with ⟨_, _, rfl⟩ | ⟨i, u, _, hu, rfl⟩
    · exact .inr ⟨_, rfl⟩
    · exact (exec_events hu : AtMostOneEvent _ u)

/-- Settles O44: reset apart, each part of the clock edge emits at most one event. -/
theorem oneEventPerStep : Obligations.OneEventPerStep := by
  unfold Obligations.OneEventPerStep
  intro s t hrst h
  rcases clockEdge_next h with ⟨ha, _, _⟩ | ⟨_, _, rfl⟩ | ⟨_, _, hseq⟩ | ⟨_, _, _, rfl⟩
  · exact absurd ha (headD_ne_rst hrst)
  · exact idleEdge_events _ (s.setInputs s.inputs.tail)
  · exact (sequencerStep_events hseq : AtMostOneEvent _ t)
  · exact .inl rfl

/-! ### Reports and output ports -/

theorem mem_touchedWords (m : Memory) (bits : BitVec 1024) (a v : Word) :
    (a, v) ∈ touchedWords m bits ↔
      a.toNat < 2048 ∧ a.toNat % 2 = 0 ∧ bits.getLsbD (a.toNat / 2) = true ∧ v = m.readWord a := by
  unfold touchedWords
  rw [List.mem_filterMap]
  constructor
  · rintro ⟨k, hk, hcell⟩
    split at hcell
    · rename_i hbit
      have hk' : k < 1024 := List.mem_range.1 hk
      obtain ⟨ha, hv⟩ := Prod.mk.inj (Option.some.inj hcell)
      have hak : a.toNat = 2 * k := by rw [← ha, BitVec.toNat_ofNat]; omega
      refine ⟨by omega, by omega, ?_, by rw [← hv, ha]⟩
      rw [hak, Nat.mul_div_cancel_left k (by decide)]
      exact hbit
    · cases hcell
  · rintro ⟨hlt, heven, hbit, rfl⟩
    have ha : BitVec.ofNat 16 (2 * (a.toNat / 2)) = a := by
      apply BitVec.eq_of_toNat_eq
      rw [BitVec.toNat_ofNat]
      omega
    exact ⟨a.toNat / 2, List.mem_range.2 (show _ < 1024 by omega), by rw [if_pos hbit, ha]⟩

/-- R50: the byte address of a stack cell. -/
theorem stackCellAddress_toNat {j : Nat} (hj : j < 256) :
    (Config.stackBase - BitVec.ofNat 16 (2 * (j + 1))).toNat = 0x8200 - 2 * (j + 1) := by
  have hbase : Config.stackBase.toNat = 0x8200 := rfl
  rw [BitVec.toNat_sub, BitVec.toNat_ofNat, hbase]
  omega

theorem mem_touchedCells (stack : Vector Word 256) (bits : BitVec 256) (a v : Word) :
    (a, v) ∈ touchedCells stack bits ↔
      ∃ j : Fin 256, bits.getLsbD j.val = true ∧ a.toNat = 0x8200 - 2 * (j.val + 1) ∧ v = stack.get j := by
  have hget (j : Fin 256) : stack[j.val]?.getD 0#16 = stack.get j := by simp [Vector.get_eq_getElem]
  unfold touchedCells
  rw [List.mem_filterMap]
  constructor
  · rintro ⟨k, hk, hcell⟩
    split at hcell
    · rename_i hbit
      have hk' : k < 256 := List.mem_range.1 hk
      obtain ⟨ha, hv⟩ := Prod.mk.inj (Option.some.inj hcell)
      exact ⟨⟨k, hk'⟩, hbit, by rw [← ha, stackCellAddress_toNat hk'], by rw [← hv, ← hget ⟨k, hk'⟩]⟩
    · cases hcell
  · rintro ⟨j, hbit, ha, rfl⟩
    have haddr : Config.stackBase - BitVec.ofNat 16 (2 * (j.val + 1)) = a :=
      BitVec.eq_of_toNat_eq (by rw [stackCellAddress_toNat j.isLt, ha])
    exact ⟨j.val, List.mem_range.2 j.isLt, by rw [if_pos hbit, haddr, hget]⟩

/-- Settles O45: the fields as they stand, and the two lists of touched cells. -/
theorem reportContents : Obligations.ReportContents := by
  unfold Obligations.ReportContents
  intro s
  refine ⟨rfl, rfl, rfl, rfl, rfl, fun a v => ?_, fun a v => ?_⟩
  · rw [report_memCells, mem_touchedWords]
  · rw [report_stackCells, mem_touchedCells]

/-- Settles O47: what a step appended is what is left of the new list without the old one. -/
theorem outputPorts : Obligations.OutputPorts := by
  unfold Obligations.OutputPorts
  refine ⟨fun s t => ⟨fun e he => ?one, fun hsame => ?none⟩, rfl, rfl⟩
  case one => rw [eventOutput, he, List.drop_left]
  case none => rw [eventOutput, hsame, List.drop_length]

end Sys2Proof.Machine
end

section
/-! Settles the rules of the single instructions (O6 to O8, O10 to O16, O24, O25, O27), the flags of a subtraction
(O23) and the statements about two instructions together (O39, O40, O42, O43, O46). First the frame of each kind of
state update; an instruction's rule is then its words, its answer and the frame of that answer. -/

namespace Sys2Proof.Machine

/-! ### The frames of the state updates -/

theorem setPc_jumpFrame (s : State) (v : Word) : JumpFrame s (s.setPc v) :=
  ⟨rfl, fun _ => rfl, .of_eq rfl rfl, ⟨rfl, rfl, rfl⟩, ⟨rfl, rfl, rfl, rfl⟩, rfl, rfl⟩

theorem setReg_moveFrame (rd : Reg) (s : State) (v : Word) : MoveFrame rd s (s.setReg rd v) :=
  ⟨rfl, rfl, setReg_reg_other s rd v, .of_eq rfl rfl, ⟨rfl, rfl, rfl⟩, ⟨rfl, rfl, rfl, rfl⟩, rfl, rfl⟩

theorem emit_warnsOnly (c : EventCode) (d : Word) (s : State) : WarnsOnly c d s (s.emit c d) :=
  ⟨rfl, rfl, fun _ => rfl, .of_eq rfl rfl, ⟨rfl, rfl, rfl⟩, ⟨rfl, rfl, rfl, rfl⟩, rfl, rfl⟩

/-- R46, R53: the frame of a word's store at a valid address. -/
theorem storeWord_storesWord {s : State} (hwf : s.mem.wf = true) {a : Word} (heven : a.toNat % 2 = 0)
    (hlt : a.toNat < 0x0800) (v : Word) : StoresWord a v s (s.storeWord a v) := by
  refine ⟨readWord_writeWord_same hwf v hlt rfl, fun x hlow hhigh => ?_, touch_getLsbD_iff _ (by omega),
    wf_writeWord hwf v hlt, rfl, rfl, fun _ => rfl, ⟨rfl, rfl, rfl⟩, ⟨rfl, rfl, rfl, rfl⟩, rfl, rfl⟩
  rw [storeWord_mem, readByte_writeWord hwf v hlt, wordBase_even heven, if_neg hhigh, if_neg hlow]

theorem checkedStore_valid {a : Word} (heven : a.toNat % 2 = 0) (hlt : a.toNat < 0x0800) (v : Word) (s : State) :
    checkedStore a v s = s.storeWord a v :=
  if_pos ((validDataAddr_iff a).2 ⟨heven, hlt⟩)

theorem checkedStore_invalid {a : Word} (h : a.toNat % 2 = 1 ∨ 0x0800 ≤ a.toNat) (v : Word) (s : State) :
    checkedStore a v s = s.emit .memWarn a :=
  if_neg (Bool.eq_false_iff.1 ((validDataAddr_eq_false a).2 h))

theorem checkedLoad_valid {a : Word} (heven : a.toNat % 2 = 0) (hlt : a.toNat < 0x0800) (rd : Reg) (s : State) :
    checkedLoad rd a s = s.setReg rd (s.mem.readWord a) :=
  if_pos ((validDataAddr_iff a).2 ⟨heven, hlt⟩)

theorem checkedLoad_invalid {a : Word} (h : a.toNat % 2 = 1 ∨ 0x0800 ≤ a.toNat) (rd : Reg) (s : State) :
    checkedLoad rd a s = s.emit .memWarn a :=
  if_neg (Bool.eq_false_iff.1 ((validDataAddr_eq_false a).2 h))

/-! ### NOP and HALT -/

/-- R76: NOP always answers, by its event and its report. -/
theorem exec_nop (s : State) : exec .nop s = .next (s.emit .report s.pc).makeReport := rfl

/-- R113: HALT always answers, by the stop at the sentinel. -/
theorem exec_halt (s : State) : exec .halt s = .next (s.stop .halted .haltSentinel s.pc) := rfl

/-- R76, R120: the step of a running core over the zero word. -/
theorem step_nop {s : State} (hr : s.run = .running) (hrst : s.inputs.head? ≠ some .rst) (hp : s.pc.toNat < 2048)
    (hw : fetchWord s = 0x0000#16) :
    step s = .next ((((s.setInputs s.inputs.tail).setIr 0x0000#16).emit .report s.pc).makeReport.setPc
      (s.pc + 2#16)) := by
  have hstep := step_instruction hr hrst hp ((decode_eq_nop_iff _).2 hw) nofun (exec_nop _)
  rw [hw] at hstep
  exact hstep

/-- Settles O6: the words by the decoder and the illegal words' first case, the rest by NOP's answer. -/
theorem nopRule : Obligations.NopRule := by
  unfold Obligations.NopRule
  refine ⟨decode_eq_nop_iff, fun w htop hsel hne => ?illegal, fun s => ?answer, fun s hr hrst hp hw => ?step⟩
  case illegal =>
    have hne' : w.toNat ≠ 0 := fun e => hne (BitVec.eq_of_toNat_eq e)
    exact ⟨_, (decode_eq_error_iff .op0SelectorZero w).2
      ((illegalWhen_op0SelectorZero_iff w).2 ⟨htop, hsel, hne'⟩)⟩
  case answer =>
    exact ⟨_, exec_nop s, rfl, by rw [makeReport_reports, emit_reports, emit_report], rfl, rfl, fun _ => rfl,
      .of_eq rfl rfl, ⟨rfl, rfl, rfl⟩, rfl, rfl, rfl, rfl⟩
  case step => exact ⟨_, step_nop hr hrst hp hw, rfl, rfl, rfl⟩

/-- Settles O46: the report is made after the IR write and before the advance. -/
theorem nopReport : Obligations.NopReport := by
  unfold Obligations.NopReport
  intro s hr hrst hp hw
  refine ⟨_, step_nop hr hrst hp hw, ?_, rfl⟩
  rw [setPc_reports, makeReport_reports, emit_report, setIr_report, setInputs_report]
  rfl

/-- Settles O27: the words by the decoder and the illegal words' last case, the rest by HALT's answer. -/
theorem haltRule : Obligations.HaltRule := by
  unfold Obligations.HaltRule
  refine ⟨decode_eq_halt_iff, fun w htop hne => ?illegal, fun s => ?answer⟩
  case illegal =>
    exact ⟨_, (decode_eq_error_iff .opFReserved w).2 ⟨(opField_eq_iff w _).2 htop, hne⟩⟩
  case answer =>
    exact ⟨_, exec_halt s, rfl, rfl, by rw [stop_reports, stop_report], rfl, rfl, rfl, rfl, rfl, fun _ => rfl,
      .of_eq rfl rfl, rfl, rfl, rfl⟩

/-! ### The stack instructions -/

/-- Settles O7: the room clause by the push onto a cell, the full one by its warning. -/
theorem pushRule : Obligations.PushRule := by
  unfold Obligations.PushRule
  refine ⟨fun w hw => ⟨_, decode_push hw, rnField_val w⟩, fun rn s hl hroom => ?room, fun rn s hfull => ?full⟩
  case room =>
    obtain ⟨heven, hlo, hhi⟩ := hl
    obtain ⟨j, hj, -, hpush⟩ := push_room (v := s.reg rn) heven (by omega) hhi
    have hsub := sp_sub_two (sp := s.sp) (by omega)
    have hindex : (0x8200 - (s.sp - 2#16).toNat) / 2 - 1 = j.val := by omega
    refine ⟨_, hpush, hsub, fun k => ?_, fun k => ?_, rfl, rfl, fun _ => rfl, .of_eq rfl rfl,
      ⟨rfl, rfl, rfl, rfl⟩, rfl, rfl⟩
    · rw [storeStack_get, storeStack_sp, setSp_sp, hindex]
      simp only [Fin.ext_iff]
      rfl
    · rw [storeStack_sp, setSp_sp, hindex]
      exact touch_getLsbD_iff _ j.isLt k
  case full => exact ⟨_, push_full hfull, emit_warnsOnly _ _ s⟩

/-- R78: POP answers as the pop does. -/
theorem exec_pop {rd : Reg} {s u : State} {v : Word} (h : pop s = .next (v, u)) :
    exec (.pop rd) s = .next (u.setReg rd v) := by
  simp only [exec, execPop, h, andThen_of_next]

/-- Settles O8: the cell clause by the pop of a cell, the empty one by its warning; then rd is written. -/
theorem popRule : Obligations.PopRule := by
  unfold Obligations.PopRule
  refine ⟨fun w hw => ⟨_, decode_pop hw, rdField_val w⟩, fun rd s hl hcell => ?cell, fun rd s hempty => ?empty⟩
  case cell =>
    obtain ⟨heven, hlo, hhi⟩ := hl
    obtain ⟨j, hj, hpop⟩ := pop_cell heven hlo (by omega)
    refine ⟨_, exec_pop hpop, sp_add_two (by omega), fun k hk => ?_, rfl, rfl, rfl, rfl,
      setReg_reg_other _ rd _, .of_eq rfl rfl, ⟨rfl, rfl, rfl, rfl⟩, rfl, rfl⟩
    obtain rfl : k = j := Fin.ext (hk.trans hj.symm)
    exact setReg_reg_same ..
  case empty =>
    exact ⟨_, exec_pop (pop_empty hempty), setReg_reg_same .., ⟨rfl, rfl, rfl⟩, rfl, rfl,
      setReg_reg_other _ rd _, .of_eq rfl rfl, ⟨rfl, rfl, rfl, rfl⟩, rfl, rfl⟩

/-! ### The jumps -/

/-- R63: the two readings of a displacement agree. -/
theorem dispField_eq_dispOfWord (w : Word) : dispField w = dispOfWord w := dispField_eq w

/-- R80: a jump answers with PC at its target exactly when it is taken. -/
theorem jumpIf_rule {b : Bool} {P : Prop} (hb : b = true ↔ P) (d : Int) (s : State) :
    ∃ t, (.next (jumpIf b d s) : Host.Outcome State Fault Refusal) = .next t ∧ JumpFrame s t ∧
      (P → (t.pc.toNat : Int) = ((s.pc.toNat : Int) + d - 2) % 65536) ∧ (¬P → t.pc = s.pc) := by
  refine ⟨_, rfl, ?_, fun hP => ?_, fun hP => ?_⟩
  · rw [jumpIf_eq]
    exact setPc_jumpFrame s _
  · rw [hb.2 hP]
    exact branchWrite_toNat s.pc d
  · rw [Bool.eq_false_iff.2 (mt hb.1 hP)]
    rfl

/-- Settles O10: the jump whose condition always holds. -/
theorem jmpRule : Obligations.JmpRule := by
  unfold Obligations.JmpRule
  refine ⟨fun w hw => by rw [← dispField_eq_dispOfWord]; exact decode_jmp hw, fun d s => ?_⟩
  obtain ⟨t, ht, hframe, htaken, -⟩ := jumpIf_rule (b := true) (P := True) (iff_of_true rfl trivial) d s
  exact ⟨t, ht, htaken trivial, hframe⟩

/-- Settles O11: the three conditions, each in its own jump. -/
theorem conditionalJumpRules : Obligations.ConditionalJumpRules := by
  unfold Obligations.ConditionalJumpRules
  refine ⟨fun w => ?words, fun d s => ⟨jumpIf_rule ?_ d s, jumpIf_rule ?_ d s, jumpIf_rule ?_ d s⟩⟩
  case words =>
    rw [← dispField_eq_dispOfWord]
    exact ⟨decode_jeq, decode_jlt, decode_jgt⟩
  all_goals simp only [Bool.and_eq_true, Bool.not_eq_true']

/-! ### The moves, the stores and the load -/

/-- Settles O12: one register write. -/
theorem movRule : Obligations.MovRule := by
  unfold Obligations.MovRule
  exact ⟨fun w hw => ⟨_, _, decode_mov hw, rdField_val w, rmField_val w⟩,
    fun rd rm s => ⟨_, rfl, setReg_reg_same s rd _, setReg_moveFrame rd s _⟩⟩

/-- Settles O13: one register write, of the zero-extended field. -/
theorem moviRule : Obligations.MoviRule := by
  unfold Obligations.MoviRule
  refine ⟨fun w hw => ⟨_, _, decode_movi hw, rdField_val w, imm8Field_toNat w⟩, fun rd k s => ?_⟩
  exact ⟨_, rfl, by rw [setReg_reg_same, immOperand_toNat], setReg_moveFrame rd s _⟩

/-- R88: STORE answers by its checked store. -/
theorem exec_store (rm rn : Reg) (s : State) :
    exec (.store rm rn) s = .next (checkedStore (s.reg rm) (s.reg rn) s) := rfl

/-- R89: STOREI answers by its checked store. -/
theorem exec_storei (rd : Reg) (k : Byte) (s : State) :
    exec (.storei rd k) s = .next (checkedStore (s.reg rd) (immOperand k) s) := rfl

/-- R90: LOAD answers by its checked load. -/
theorem exec_load (rd rm : Reg) (s : State) : exec (.load rd rm) s = .next (checkedLoad rd (s.reg rm) s) := rfl

/-- R44, R56: a fetch of a stored word, from either of its two addresses. -/
theorem fetchWord_storeWord {s : State} (hwf : s.mem.wf = true) {a : Word} (hlt : a.toNat < 0x0800) (v : Word)
    {p : Word} (hp : p.toNat / 2 = a.toNat / 2) : fetchWord { s.storeWord a v with pc := p } = v :=
  readWord_writeWord_same hwf v hlt hp

/-- Settles O14: the checked store at a valid and at an invalid address. -/
theorem storeRule : Obligations.StoreRule := by
  unfold Obligations.StoreRule
  refine ⟨fun w hw => ⟨_, _, decode_store hw, rmField_val w, rnField_val w⟩,
    fun rm rn s hwf heven hlt => ?valid, fun rm rn s hbad => ?invalid⟩
  case valid =>
    rw [exec_store, checkedStore_valid heven hlt]
    exact ⟨_, rfl, storeWord_storesWord hwf heven hlt _, fun p => fetchWord_storeWord hwf hlt _⟩
  case invalid =>
    rw [exec_store, checkedStore_invalid hbad]
    exact ⟨_, rfl, emit_warnsOnly _ _ s⟩

/-- R61: the zero-extended immediate, by number. -/
theorem immOperand_eq_ofNat (k : Byte) : immOperand k = BitVec.ofNat 16 k.toNat :=
  (BitVec.ofNat_toNat ..).symm

/-- R89: an immediate is never the sentinel, whose high byte is not 0. -/
theorem immOperand_ne_sentinel (k : Byte) : immOperand k ≠ 0xFFFF#16 := fun h => by
  have hk := k.isLt
  rw [← immOperand_toNat, h] at hk
  exact absurd hk (by decide)

/-- Settles O15: as for STORE, with the immediate in place of a register. -/
theorem storeiRule : Obligations.StoreiRule := by
  unfold Obligations.StoreiRule
  refine ⟨fun w hw => ⟨_, _, decode_storei hw, rdField_val w, imm8Field_toNat w⟩,
    fun rd k s hwf heven hlt => ?valid, fun rd k s hbad => ?invalid⟩
  case valid =>
    rw [exec_storei, checkedStore_valid heven hlt, ← immOperand_eq_ofNat]
    obtain ⟨hread, hframe⟩ := storeWord_storesWord hwf heven hlt (immOperand k)
    exact ⟨_, rfl, ⟨hread, hframe⟩, by rw [hread]; exact immOperand_ne_sentinel k⟩
  case invalid =>
    rw [exec_storei, checkedStore_invalid hbad]
    exact ⟨_, rfl, emit_warnsOnly _ _ s⟩

/-- R37: a word at an even address, by its two bytes. -/
theorem readWord_toNat (m : Memory) {a : Word} (heven : a.toNat % 2 = 0) :
    (m.readWord a).toNat = (m.readByte a.toNat).toNat + 256 * (m.readByte (a.toNat + 1)).toNat := by
  rw [Memory.readWord, wordBase_even heven, append_toNat]
  omega

/-- Settles O16: the checked load at a valid and at an invalid address, and the illegal words' second case. -/
theorem loadRule : Obligations.LoadRule := by
  unfold Obligations.LoadRule
  refine ⟨fun w hw => ⟨_, _, decode_load hw, rdField_val w, rmField_val w⟩, fun w hw => ?illegal,
    fun rd rm s heven hlt => ?valid, fun rd rm s hbad => ?invalid⟩
  case illegal => exact ⟨_, (decode_eq_error_iff .op3Immediate w).2 (topBits_of_mask hw)⟩
  case valid =>
    rw [exec_load, checkedLoad_valid heven hlt]
    exact ⟨_, rfl, by rw [setReg_reg_same, readWord_toNat _ heven], setReg_moveFrame rd s _⟩
  case invalid =>
    rw [exec_load, checkedLoad_invalid hbad]
    exact ⟨_, rfl, emit_warnsOnly _ _ s⟩

/-- Settles O42: the load reads the word that the store wrote. -/
theorem loadAfterStore : Obligations.LoadAfterStore := by
  unfold Obligations.LoadAfterStore
  intro rm rn rd ra s hwf heven hlt hsame
  have hstore : exec (.store rm rn) s = .next (s.storeWord (s.reg rm) (s.reg rn)) := by
    rw [exec_store, checkedStore_valid heven hlt]
  refine ⟨_, _, hstore, exec_load rd ra _, ?_⟩
  rw [storeWord_reg, hsame, checkedLoad_valid heven hlt, setReg_reg_same]
  exact readWord_writeWord_same hwf _ hlt rfl

/-- Settles O43: the step keeps what STORE wrote, and the next fetch is at PC + 2. -/
theorem storeThenFetch : Obligations.StoreThenFetch := by
  unfold Obligations.StoreThenFetch
  intro s rm rn hwf hr hrst hp hd heven hlt
  have hstores : exec (.store rm rn) ((s.setInputs s.inputs.tail).setIr (fetchWord s)) =
      .next (((s.setInputs s.inputs.tail).setIr (fetchWord s)).storeWord (s.reg rm) (s.reg rn)) :=
    (exec_store ..).trans (congrArg Host.Outcome.next (checkedStore_valid heven hlt _ _))
  exact ⟨_, step_instruction hr hrst hp hd nofun hstores, fun p =>
    fetchWord_storeWord hwf hlt _, fetchWord_storeWord hwf hlt _⟩

/-! ### The flags of a subtraction (R95) -/

/-- R95: the sign-bit form of Overflow is the library's signed overflow of a subtraction. -/
theorem computeFlags_subtract_overflow_eq_ssubOverflow (a b : Word) :
    (computeFlags (a - b) a b .subtract).overflow = a.ssubOverflow b := by
  rw [BitVec.ssubOverflow_eq]
  simp only [computeFlags, overflowFlag]
  cases a.msb <;> cases b.msb <;> cases (a - b).msb <;> rfl

/-- Signed overflow of a 16-bit subtraction: the exact difference leaves the range of a signed word. -/
theorem word_ssubOverflow_iff (a b : Word) :
    a.ssubOverflow b = true ↔ a.toInt - b.toInt < -32768 ∨ 32767 < a.toInt - b.toInt := by
  simp only [BitVec.ssubOverflow, Bool.or_eq_true, decide_eq_true_eq]
  omega

/-- Settles O23: Carry by its definition; both forms of Overflow are the library's `BitVec.ssubOverflow`. -/
theorem subtractFlags : Obligations.SubtractFlags := by
  unfold Obligations.SubtractFlags
  intro a b
  refine ⟨computeFlags_subtract_carry _ a b, (computeFlags_subtract_carry _ a a).2 (Nat.le_refl _),
    computeFlags_subtract_overflow _ a b, ?signed⟩
  case signed => rw [computeFlags_subtract_overflow_eq_ssubOverflow, word_ssubOverflow_iff]

/-! ### The shifts -/

theorem word_shiftRight_toNat (v : Word) (n : Nat) : (v >>> n).toNat = v.toNat / 2 ^ n := by
  rw [BitVec.toNat_ushiftRight, Nat.shiftRight_eq_div_pow]

theorem word_shiftLeft_toNat (v : Word) (n : Nat) : (v <<< n).toNat = v.toNat * 2 ^ n % 65536 := by
  rw [BitVec.toNat_shiftLeft, Nat.shiftLeft_eq]

/-- R107, R108: a 0 is shifted into bit 15. -/
theorem word_shiftRight_msb (v : Word) {n : Nat} (h : 1 ≤ n) : (v >>> n).msb = false := by
  have hpos : 0 < n := h
  rw [BitVec.msb_ushiftRight, decide_eq_true hpos]
  rfl

/-- What both shifts to the right answer. -/
theorem shiftRight_rule (rd rm : Reg) (n : Nat) (b : Word) (s : State) :
    ∃ t, (.next (writeResult rd (s.reg rm >>> n) (s.reg rm) b .other s) :
        Host.Outcome State Fault Refusal) = .next t ∧
      (t.reg rd).toNat = (s.reg rm).toNat / 2 ^ n ∧ (1 ≤ n → t.flags.sign = false) ∧
      LogicFlags (t.reg rd) t.flags ∧ AluFrame rd s t :=
  ⟨_, rfl, by rw [writeResult_reg_same, word_shiftRight_toNat], word_shiftRight_msb _,
    writeResult_other_logicFlags .., writeResult_aluFrame ..⟩

/-- What both shifts to the left answer. -/
theorem shiftLeft_rule (rd rm : Reg) (n : Nat) (b : Word) (s : State) :
    ∃ t, (.next (writeResult rd (s.reg rm <<< n) (s.reg rm) b .other s) :
        Host.Outcome State Fault Refusal) = .next t ∧
      (t.reg rd).toNat = (s.reg rm).toNat * 2 ^ n % 65536 ∧ LogicFlags (t.reg rd) t.flags ∧ AluFrame rd s t :=
  ⟨_, rfl, by rw [writeResult_reg_same, word_shiftLeft_toNat], writeResult_other_logicFlags ..,
    writeResult_aluFrame ..⟩

/-- Settles O24: the shifts by the count 1. -/
theorem shiftByOneRules : Obligations.ShiftByOneRules := by
  unfold Obligations.ShiftByOneRules
  refine ⟨fun w => ⟨_, _, rdField_val w, rmField_val w, decode_shr, decode_shl⟩, fun rd rm s => ⟨?shr, ?shl⟩⟩
  case shr =>
    obtain ⟨t, ht, hresult, hsign, hrest⟩ := shiftRight_rule rd rm 1 1#16 s
    exact ⟨t, ht, hresult, hsign (Nat.le_refl 1), hrest⟩
  case shl => exact shiftLeft_rule rd rm 1 1#16 s

/-- Settles O25: the shifts by the count in the word. -/
theorem shiftByCountRules : Obligations.ShiftByCountRules := by
  unfold Obligations.ShiftByCountRules
  exact ⟨fun w => ⟨_, _, _, rdField_val w, rmField_val w, sh3Field_eq w, decode_shri, decode_shli⟩,
    fun rd rm n s _ => ⟨shiftRight_rule rd rm n _ s, shiftLeft_rule rd rm n _ s⟩⟩

/-! ### The conditional jumps after the flags are written -/

/-- Settles O39: Z and S are not both set, which leaves three cases, one for each jump. -/
theorem oneConditionalJump : Obligations.OneConditionalJump := by
  unfold Obligations.OneConditionalJump
  intro i s t d hf h
  have hexcl := (flagFrame i s t h).2 hf
  have hjeq : exec (.jeq d) t = .next (jumpIf (t.flags.zero && !t.flags.sign) d t) := rfl
  have hjlt : exec (.jlt d) t = .next (jumpIf (t.flags.sign && !t.flags.zero) d t) := rfl
  have hjgt : exec (.jgt d) t = .next (jumpIf (!t.flags.zero && !t.flags.sign) d t) := rfl
  rw [hjeq, hjlt, hjgt]
  cases hz : t.flags.zero <;> cases hs : t.flags.sign
  case false.false => exact .inr (.inr ⟨rfl, rfl, rfl⟩)
  case false.true => exact .inr (.inl ⟨rfl, rfl, rfl⟩)
  case true.false => exact .inl ⟨rfl, rfl, rfl⟩
  case true.true => exact absurd ⟨hz, hs⟩ hexcl

/-- R81 to R84: a jump answers by the table of taken jumps. -/
theorem jumpIf_ite (b : Bool) (d : Int) (t : State) :
    jumpIf b d t = (if b then some d else none).elim t fun e => t.setPc (branchWrite t.pc e) := by
  cases b <;> rfl

theorem exec_conditionalJump {i : Instr} {d : Int} (hi : i = .jeq d ∨ i = .jlt d ∨ i = .jgt d) (t : State) :
    exec i t = .next ((takenJump i t.flags).elim t fun e => t.setPc (branchWrite t.pc e)) := by
  rcases hi with rfl | rfl | rfl <;> exact congrArg Host.Outcome.next (jumpIf_ite _ d t)

/-- Settles O40: the conditions of the three jumps, on the flags of the difference. -/
theorem jumpAfterCompare : Obligations.JumpAfterCompare := by
  unfold Obligations.JumpAfterCompare
  intro rm rn s d
  have hequal : s.reg rm = s.reg rn ↔ ((s.reg rm).toNat + 65536 - (s.reg rn).toNat) % 65536 = 0 := by
    rw [← word_sub_toNat, word_sub_toNat_eq_zero, BitVec.toNat_eq]
  refine ⟨_, exec_cmp rm rn s, ?jeq, ?jlt, ?jgt, fun i hi => ?answer⟩
  case answer =>
    rw [exec_conditionalJump hi]
    cases takenJump i _ <;> rfl
  all_goals
    simp only [takenJump, Option.ite_none_right_eq_some, and_true, Bool.and_eq_true, Bool.not_eq_true',
      ← Bool.not_eq_true, setFlags_flags, computeFlags_zero, computeFlags_sign, word_sub_toNat, hequal]
    omega

end Sys2Proof.Machine
end

section
/-! Settles reset and the load interface (O48 to O54) and the canonical form of memory (O59). The single edges are
read off from the step by run state; a whole load is an induction over its records, with the state after some
records said once. -/

namespace Sys2Proof.Machine

/-! ### The edges outside RUNNING -/

/-- What the host presents first is not `rst`. -/
theorem head?_ne_rst {s : State} {a : HostAction} {l : List HostAction} (hin : s.inputs = a :: l) (ha : a ≠ .rst) :
    s.inputs.head? ≠ some .rst := by
  rw [hin, List.head?_cons]
  exact fun h => ha (Option.some.inj h)

/-- R159: the edge of an idle core with a transaction presented. -/
theorem step_idle_action {s : State} {a : HostAction} {l : List HostAction} (hr : s.run = .idle)
    (hin : s.inputs = a :: l) (ha : a ≠ .rst) : step s = .next (idleEdge a (s.setInputs l)) := by
  rw [step_idle hr (head?_ne_rst hin ha), hin]
  rfl

/-- Settles O48: the fields of the state after reset, and the edge with `rst`. -/
theorem resetState : Obligations.ResetState := by
  unfold Obligations.ResetState
  refine ⟨fun r => ?regs, rfl, rfl, rfl, rfl, fun j => ?stack, fun k => BitVec.getLsbD_zero,
    fun k => BitVec.getLsbD_zero, rfl, fun a => readWord_of_fill rfl rfl, rfl, rfl, rfl, rfl, fun s l hr hin => ?rst⟩
  case regs => simp [State.reg, State.reset]
  case stack => simp [State.reset]
  case rst =>
    rw [step_reset hr (by rw [hin]; rfl), hin]
    rfl

theorem loadRecord_valid {a : Word} (heven : a.toNat % 2 = 0) (hlt : a.toNat < 0x0800) (w : Word) (s : State) :
    loadRecord a w s = (s.storeWord a w).countRecord :=
  if_pos ((validDataAddr_iff a).2 ⟨heven, hlt⟩)

theorem loadRecord_invalid {a : Word} (h : a.toNat % 2 = 1 ∨ 0x0800 ≤ a.toNat) (w : Word) (s : State) :
    loadRecord a w s = (s.emit .loadBadAddr a).setRun .loadFailed :=
  if_neg (Bool.eq_false_iff.1 ((validDataAddr_eq_false a).2 h))

/-- R147: the edge of an idle core with a valid record. -/
theorem step_validRecord {s : State} {a w : Word} {l : List HostAction} (hr : s.run = .idle)
    (hin : s.inputs = .loadRecord a w :: l) (heven : a.toNat % 2 = 0) (hlt : a.toNat < 0x0800) :
    step s = .next ((s.setInputs l).storeWord a w).countRecord := by
  rw [step_idle_action hr hin nofun, idleEdge, loadRecord_valid heven hlt]

/-- R148: the edge of an idle core with an invalid record. -/
theorem step_invalidRecord {s : State} {a w : Word} {l : List HostAction} (hr : s.run = .idle)
    (hin : s.inputs = .loadRecord a w :: l) (h : a.toNat % 2 = 1 ∨ 0x0800 ≤ a.toNat) :
    step s = .next (((s.setInputs l).emit .loadBadAddr a).setRun .loadFailed) := by
  rw [step_idle_action hr hin nofun, idleEdge, loadRecord_invalid h]

/-- R150: the edge of an idle core with `Start` after a record was accepted. -/
theorem step_start {s : State} {l : List HostAction} (hr : s.run = .idle) (hin : s.inputs = .start :: l)
    (h : s.accepted ≠ 0) : step s = .next ((s.setInputs l).setRun .running) := by
  rw [step_idle_action hr hin nofun, idleEdge, startCore, setInputs_accepted, if_neg h]

/-- Settles O49: the record's store is the store of a word, and it is counted. -/
theorem loadRecordRule : Obligations.LoadRecordRule := by
  unfold Obligations.LoadRecordRule
  intro s a w l hr hwf hin
  refine ⟨fun heven hlt => ?valid, fun hbad => step_invalidRecord hr hin hbad⟩
  case valid =>
    exact ⟨_, step_validRecord hr hin heven hlt, readWord_writeWord_same hwf w hlt rfl,
      fun b => readWord_writeWord_other hwf w hlt, touch_getLsbD_iff _ (by omega), rfl, hr, ⟨rfl, rfl⟩, rfl, rfl,
      rfl, rfl, fun _ => rfl, rfl, rfl, rfl⟩

/-- Settles O50: the two answers of `Start`. -/
theorem startRule : Obligations.StartRule := by
  unfold Obligations.StartRule
  intro s l hr hin
  refine ⟨fun h => step_start hr hin h, fun h => ?empty⟩
  case empty =>
    rw [step_idle_action hr hin nofun, idleEdge, startCore, setInputs_accepted, if_pos h]
    rfl

/-- R114: an edge outside RUNNING at which nothing is presented only passes to the next one. -/
theorem step_noAction {s : State} (hr : s.run ≠ .running) (hin : s.inputs.headD .noAction = .noAction) :
    step s = .next (s.setInputs s.inputs.tail) := by
  rw [step_eq, hin, clockEdge, if_neg nofun, setInputs_run]
  cases hrun : s.run with
  | running => exact absurd hrun hr
  | _ => rfl

/-- Settles O51: the edges at which nothing is presented, and those of a stopped core. -/
theorem stepsOnlyWhileRunning : Obligations.StepsOnlyWhileRunning := by
  unfold Obligations.StepsOnlyWhileRunning
  refine ⟨fun s hr hin => ?silent, fun s l hr hin => ?noAction, fun s hr hrst => step_terminal hr hrst⟩
  case silent =>
    have hsame : s.setInputs s.inputs.tail = s := by rw [hin, List.tail_nil, ← hin]; rfl
    rw [step_noAction hr (by rw [hin]; rfl), hsame]
  case noAction =>
    rw [step_noAction hr (by rw [hin]; rfl), hin]
    rfl

/-- Settles O52: the sequencer does not look at what is presented. -/
theorem runningIgnoresHost : Obligations.RunningIgnoresHost := by
  unfold Obligations.RunningIgnoresHost
  intro s a l hr ha
  have hpresented := step_running (s := s.setInputs (a :: l)) hr (head?_ne_rst rfl ha)
  have hsilent := step_running (s := s.setInputs (.noAction :: l)) hr (head?_ne_rst rfl nofun)
  exact hpresented.trans hsilent.symm

/-! ### A load of several records -/

/-- R147: a record whose address is valid. -/
def ValidRecord (p : Word × Word) : Prop := p.1.toNat % 2 = 0 ∧ p.1.toNat < 0x0800

/-- The host's presentation of some records. -/
def presented (records : List (Word × Word)) : List HostAction :=
  records.map fun p => HostAction.loadRecord p.1 p.2

/-- R147: the state after some valid records. -/
def loaded (records : List (Word × Word)) (s : State) : State :=
  records.foldl (fun u p => (u.storeWord p.1 p.2).countRecord) s

theorem loaded_cons (p : Word × Word) (records : List (Word × Word)) (s : State) :
    loaded (p :: records) s = loaded records (s.storeWord p.1 p.2).countRecord := rfl

/-- What a load leaves unchanged. -/
structure LoadFrame (s t : State) : Prop where
  regs : t.regs = s.regs
  pc : t.pc = s.pc
  ir : t.ir = s.ir
  sp : t.sp = s.sp
  flags : t.flags = s.flags
  run : t.run = s.run
  stack : t.stack = s.stack
  events : t.events = s.events

theorem loaded_frame (records : List (Word × Word)) (s : State) : LoadFrame s (loaded records s) := by
  induction records generalizing s with
  | nil => exact ⟨rfl, rfl, rfl, rfl, rfl, rfl, rfl, rfl⟩
  | cons p records ih =>
    obtain ⟨hregs, hpc, hir, hsp, hflags, hrun, hstack, hevents⟩ := ih (s.storeWord p.1 p.2).countRecord
    exact ⟨hregs, hpc, hir, hsp, hflags, hrun, hstack, hevents⟩

theorem loaded_accepted (records : List (Word × Word)) (s : State) :
    (loaded records s).accepted = s.accepted + records.length := by
  induction records generalizing s with
  | nil => rfl
  | cons p records ih =>
    rw [loaded_cons, ih, countRecord_accepted, storeWord_accepted, List.length_cons]
    omega

/-- R152: a word after a load is that of the last record of its address, or what it was. -/
theorem loaded_readWord {records : List (Word × Word)} (hvalid : ∀ p ∈ records, ValidRecord p) {s : State}
    (hwf : s.mem.wf = true) {a : Word} (ha : a.toNat % 2 = 0) :
    (loaded records s).mem.readWord a =
      ((records.reverse.find? fun p => p.1 == a).map Prod.snd).getD (s.mem.readWord a) := by
  induction records generalizing s with
  | nil => rfl
  | cons p records ih =>
    obtain ⟨heven, hlt⟩ := hvalid p List.mem_cons_self
    have hwf' : (s.storeWord p.1 p.2).countRecord.mem.wf = true := wf_writeWord hwf p.2 hlt
    rw [loaded_cons, ih (fun q hq => hvalid q (List.mem_cons_of_mem p hq)) hwf', List.reverse_cons, List.find?_append]
    cases records.reverse.find? fun q => q.1 == a with
    | some q => rfl
    | none =>
      by_cases hpa : p.1 = a
      · have hread : (s.mem.writeWord p.1 p.2).readWord a = p.2 := readWord_writeWord_same hwf p.2 hlt (by rw [hpa])
        simpa [hpa] using hread
      · have hcell : a.toNat / 2 ≠ p.1.toNat / 2 := fun h => hpa (BitVec.eq_of_toNat_eq (by omega))
        have hread := readWord_writeWord_other hwf p.2 hlt hcell
        simpa [hpa] using hread

/-- The records leave the host's list as it was. -/
theorem loaded_inputs (records : List (Word × Word)) (s : State) : (loaded records s).inputs = s.inputs := by
  induction records generalizing s with
  | nil => rfl
  | cons p records ih => exact ih _

/-- A run of the machine, on its own state type. -/
def runFor (n : Nat) (s : State) : Host.Outcome State Fault Refusal := core.run n s

theorem core_run_eq_runFor (n : Nat) (s : State) :
    (core.run n s : Host.Outcome State Fault Refusal) = runFor n s := rfl

theorem runFor_zero (s : State) : runFor 0 s = .next s := core_run_zero s

theorem runFor_succ {n : Nat} {s t : State} (h : step s = .next t) : runFor (n + 1) s = runFor n t :=
  core_run_succ h

/-- R147, R159: an idle core takes valid records one an edge. -/
theorem runFor_records {records : List (Word × Word)} (hvalid : ∀ p ∈ records, ValidRecord p) {s : State}
    (hr : s.run = .idle) (rest : List HostAction) (n : Nat) :
    runFor (records.length + n) (s.setInputs (presented records ++ rest)) =
      runFor n (loaded records (s.setInputs rest)) := by
  induction records generalizing s with
  | nil => rw [List.length_nil, Nat.zero_add]; rfl
  | cons p records ih =>
    obtain ⟨heven, hlt⟩ := hvalid p List.mem_cons_self
    have hstep : step (s.setInputs (presented (p :: records) ++ rest)) =
        .next ((s.storeWord p.1 p.2).countRecord.setInputs (presented records ++ rest)) :=
      step_validRecord (s := s.setInputs (presented (p :: records) ++ rest)) hr rfl heven hlt
    have hrest : ∀ q ∈ records, ValidRecord q := fun q hq => hvalid q (List.mem_cons_of_mem p hq)
    rw [List.length_cons, Nat.add_right_comm, runFor_succ hstep,
      ih (s := (s.storeWord p.1 p.2).countRecord) hrest hr]
    rfl

/-- R150: `Start` as the last thing presented starts the core if a record was accepted. -/
theorem runFor_start {s : State} (hr : s.run = .idle) (hin : s.inputs = [.start]) (h : s.accepted ≠ 0) :
    runFor 1 s = .next ((s.setInputs []).setRun .running) := by
  rw [runFor_succ (step_start hr hin h), runFor_zero]

/-- R143: a core whose load has failed passes by everything but `rst`. -/
theorem runFor_loadFailed {s : State} (hr : s.run = .loadFailed) (hrst : .rst ∉ s.inputs) (n : Nat) :
    runFor n s = .next (s.setInputs (s.inputs.drop n)) := by
  induction n generalizing s with
  | zero => exact runFor_zero s
  | succ n ih =>
    have hhead : s.inputs.head? ≠ some .rst := fun h => hrst (List.mem_of_head? h)
    have htail : .rst ∉ (s.setInputs s.inputs.tail).inputs := fun h => hrst (List.mem_of_mem_tail h)
    rw [runFor_succ (step_terminal (.inr (.inr hr)) hhead), ih (s := s.setInputs s.inputs.tail) hr htail,
      setInputs_inputs, List.drop_tail]
    rfl

/-- Settles O53: the records one by one, then `Start`. -/
theorem launchPremises : Obligations.LaunchPremises := by
  unfold Obligations.LaunchPremises
  intro records hne hvalid
  obtain ⟨hregs, hpc, hir, hsp, hflags, hrun, hstack, hevents⟩ :=
    loaded_frame records (State.reset.setInputs [.start])
  have haccepted : (loaded records (State.reset.setInputs [.start])).accepted ≠ 0 := by
    rw [loaded_accepted]
    have := List.length_pos_of_ne_nil hne
    omega
  have hload := runFor_records (s := State.reset) hvalid rfl [.start] 1
  rw [runFor_start hrun (loaded_inputs records _) haccepted] at hload
  obtain ⟨hreg0, -, -, -, -, hstack0, -⟩ := resetState
  refine ⟨_, (core_run_eq_runFor _ _).trans hload, rfl, hpc, hir, hsp, hflags, fun r => ?regs, fun j => ?stack,
    hevents, rfl, fun a ha _ => ?memory⟩
  case regs => exact (SameRegs.of_eq hregs r).trans (hreg0 r)
  case stack => exact (congrArg (·.get j) hstack).trans (hstack0 j)
  case memory =>
    have hfill : State.reset.mem.readWord a = 0xFFFF#16 := readWord_of_fill rfl rfl
    rw [← hfill]
    exact loaded_readWord (s := State.reset.setInputs [.start]) hvalid reset_mem_wf ha

theorem rst_not_mem_presented (records : List (Word × Word)) : .rst ∉ presented records ++ [.start] := by
  simp [presented]

theorem presented_append (before after : List (Word × Word)) (a w : Word) (rest : List HostAction) :
    presented (before ++ [(a, w)] ++ after) ++ rest =
      presented before ++ .loadRecord a w :: (presented after ++ rest) := by
  simp [presented]

/-- R148: a load that meets an invalid record, to its end. -/
theorem runFor_badRecord {before : List (Word × Word)} (hvalid : ∀ p ∈ before, ValidRecord p) {a w : Word}
    (hbad : a.toNat % 2 = 1 ∨ 0x0800 ≤ a.toNat) {s : State} (hr : s.run = .idle) {rest : List HostAction}
    (hrst : .rst ∉ rest) (n : Nat) :
    runFor (before.length + (n + 1)) (s.setInputs (presented before ++ .loadRecord a w :: rest)) =
      .next ((((loaded before (s.setInputs (.loadRecord a w :: rest))).emit .loadBadAddr a).setRun
        .loadFailed).setInputs (rest.drop n)) := by
  obtain ⟨-, -, -, -, -, hrun, -⟩ := loaded_frame before (s.setInputs (.loadRecord a w :: rest))
  have hstep := step_invalidRecord (hrun.trans hr) (loaded_inputs before _) hbad
  rw [runFor_records hvalid hr, runFor_succ hstep, runFor_loadFailed rfl hrst]
  rfl

/-- Settles O54: the records before the bad one as in any load, the bad one's edge, and then a failed core. -/
theorem badRecordFailsLoad : Obligations.BadRecordFailsLoad := by
  unfold Obligations.BadRecordFailsLoad
  intro before after a w hvalid hbad
  obtain ⟨hregs, hpc, -, -, -, -, -, hevents⟩ :=
    loaded_frame before (State.reset.setInputs (.loadRecord a w :: (presented after ++ [.start])))
  have hload := runFor_badRecord hvalid (w := w) hbad (s := State.reset) rfl (rst_not_mem_presented after)
    (after.length + 1)
  have hlength : before.length + (after.length + 1 + 1) = before.length + 1 + after.length + 1 := by omega
  rw [← presented_append, hlength] at hload
  obtain ⟨hreg0, -⟩ := resetState
  exact ⟨_, (core_run_eq_runFor _ _).trans hload, rfl, congrArg (· ++ [Event.mk .loadBadAddr a]) hevents, hpc,
    fun r => (SameRegs.of_eq hregs r).trans (hreg0 r)⟩

/-! ### The canonical form of memory -/

/-- A listed cell does not read as the fill. -/
theorem cellsRead_head (c : Host.Cell) (rest : List Host.Cell) : cellsRead (c :: rest) c.1 = c.2 := by
  rw [cellsRead, if_pos rfl]

theorem cellsRead_cons_ne {c : Host.Cell} {a : Nat} (h : c.1 ≠ a) (rest : List Host.Cell) :
    cellsRead (c :: rest) a = cellsRead rest a := by
  rw [cellsRead, if_neg h]

/-- The first cell of a canonical list lies at or above the first cell of another that reads alike. -/
theorem head_le_of_reads_eq {lo lo' : Nat} {c d : Host.Cell} {cs ds : List Host.Cell}
    (hc : cellsWf lo (c :: cs) = true) (hd : cellsWf lo' (d :: ds) = true)
    (h : ∀ a, cellsRead (c :: cs) a = cellsRead (d :: ds) a) : d.1 ≤ c.1 := by
  by_contra hlt
  obtain ⟨-, hin, hfill, -⟩ := (cellsWf_cons _ _ _).1 hc
  obtain ⟨-, hin', hfill', hds⟩ := (cellsWf_cons _ _ _).1 hd
  have hbelow : cellsRead (d :: ds) c.1 = 0xFF#8 :=
    cellsRead_below ((cellsWf_cons d.1 _ _).2 ⟨Nat.le_refl _, hin', hfill', hds⟩) (Nat.lt_of_not_le hlt)
  rw [← h, cellsRead_head] at hbelow
  exact hfill hbelow

/-- Canonical lists of cells that read alike are equal. -/
theorem cells_eq_of_reads_eq {lo : Nat} {cs ds : List Host.Cell} (hcs : cellsWf lo cs = true)
    (hds : cellsWf lo ds = true) (h : ∀ a, cellsRead cs a = cellsRead ds a) : cs = ds := by
  induction cs generalizing lo ds with
  | nil =>
    cases ds with
    | nil => rfl
    | cons d ds =>
      obtain ⟨-, -, hfill, -⟩ := (cellsWf_cons _ _ _).1 hds
      have hread := h d.1
      rw [cellsRead_head] at hread
      exact absurd hread.symm hfill
  | cons c cs ih =>
    cases ds with
    | nil =>
      obtain ⟨-, -, hfill, -⟩ := (cellsWf_cons _ _ _).1 hcs
      have hread := h c.1
      rw [cellsRead_head] at hread
      exact absurd hread hfill
    | cons d ds =>
      have haddr : c.1 = d.1 :=
        Nat.le_antisymm (head_le_of_reads_eq hds hcs fun a => (h a).symm) (head_le_of_reads_eq hcs hds h)
      have hbyte : c.2 = d.2 := by
        have hread := h c.1
        rw [cellsRead_head, haddr, cellsRead_head] at hread
        exact hread
      obtain ⟨-, -, -, hcs'⟩ := (cellsWf_cons _ _ _).1 hcs
      obtain ⟨-, -, -, hds'⟩ := (cellsWf_cons _ _ _).1 hds
      have htails : ∀ a, cellsRead cs a = cellsRead ds a := fun a => by
        by_cases ha : c.1 = a
        · rw [cellsRead_below hcs' (by omega), cellsRead_below hds' (by omega)]
        · have hread := h a
          rwa [cellsRead_cons_ne ha, cellsRead_cons_ne (haddr ▸ ha)] at hread
      rw [ih hcs' (haddr ▸ hds') htails, show c = d from Prod.ext haddr hbyte]

/-- Settles O59: the first cells of both lists agree, and so on down the lists. -/
theorem memoryCanonical : Obligations.MemoryCanonical := by
  unfold Obligations.MemoryCanonical
  intro m m' hm hm' h
  have hcells : m.cells = m'.cells := cells_eq_of_reads_eq hm hm' h
  cases m
  cases m'
  exact congrArg Memory.mk hcells

end Sys2Proof.Machine
end
